-- ==== Sys2Proof/Word.lean ====
section
/-! DEFINITION. The widths of the engine: bytes, 32-bit words, byte sequences, and the two block sizes (00_scope.md R5, R13). -/

namespace Sys2Proof

/-- A byte: 8 bits, bit 7 most significant (R13). -/
abbrev Byte := BitVec 8

/-- A word: 32 bits, bit 31 most significant (R13). The operators of rule R14 are those of `BitVec`:
`+` modulo 2^32, `^^^`, `&&&`, `|||`, `~~~`. -/
abbrev Word := BitVec 32

/-- A byte sequence, first byte first (R13). -/
abbrev Bytes := List Byte

/-- A cipher block, an initialisation vector or a chain value: 16 bytes, byte 0 first (R5, R28, R29). -/
abbrev Block := Vector Byte 16

/-- A hash block: exactly 64 bytes (R5, R100). -/
abbrev HashBlock := Vector Byte 64

/-- The eight registers `V[0..7]` of the running digest (R22). -/
abbrev Digest8 := Vector Word 8

/-- The thirty-two round keys in order (R27). -/
abbrev RoundKeys := Vector Word 32

end Sys2Proof
end

