-- ==== Sys2Proof/Syntax.lean ====
section
/-! DEFINITION. The abstract syntax of commands: one constructor per row of spec/opcode_table.json (30_encoding.md R63, R71). -/

namespace Sys2Proof

/-- The mode selector (R26): `MODE` 0 is CBC, 1 is ECB. -/
inductive Mode where
  | cbc
  | ecb
  deriving DecidableEq, Repr

/-- The output representation selector (R26): `OUTFORM` 0 is base64, 1 is text. -/
inductive OutForm where
  | base64
  | text
  deriving DecidableEq, Repr

/-- The decoded commands of rule R71. The illegal command of that rule is no row of the opcode table:
the decoder answers it by name and `step` gives it its response (log entry 8). -/
inductive Instr where
  /-- `HRESET`: reset the hash context (R94). -/
  | hreset
  /-- `HWRITE data`: absorb bytes (R95). -/
  | hwrite (data : Bytes)
  /-- `HDIGEST [message], raw|hex`: `message` is present when `MSG` = 1, `hex` is the `HEX` bit (R64, R96). -/
  | hdigest (message : Option Bytes) (hex : Bool)
  /-- `CINIT key, [iv], mode, out`: `iv` is present when `IVP` = 1, and may have any length (R64, R65, R122). -/
  | cinit (key : Bytes) (iv : Option Bytes) (mode : Mode) (outform : OutForm)
  /-- `CENC plaintext` (R139). -/
  | cenc (plaintext : Bytes)
  /-- `CDEC ciphertext` (R140). -/
  | cdec (ciphertext : Bytes)
  /-- `CBLK block`: `dec` is the `DEC` bit, true for the decryption order of the round keys (R64, R123). -/
  | cblk (block : Bytes) (dec : Bool)
  deriving DecidableEq, Repr

namespace Instr

/-- The payload bytes of a command, in order (R65): for `CINIT` the key followed by the IV. -/
def payload : Instr → Bytes
  | hreset => []
  | hwrite data => data
  | hdigest message _ => message.getD []
  | cinit key iv _ _ => key ++ iv.getD []
  | cenc plaintext => plaintext
  | cdec ciphertext => ciphertext
  | cblk block _ => block

end Instr

end Sys2Proof
end

