-- ==== Sys2Proof/Machine/State.lean ====
section
/-! DEFINITION. The machine's state as plain data (10_state.md R20 to R30), its value after reset (R36, R170), and the
reasons for which the machine has no step. -/

namespace Sys2Proof.Machine

/-- The hash context: the document's HashState (R20, R22 to R24). -/
structure HashContext where
  /-- `V[0..7]`, the running digest (R22). -/
  v : Digest8
  /-- `BUF[0..BUFLEN)`, oldest byte first; `BUFLEN` is the length of the list (R23; log entry 4). -/
  buf : Bytes
  /-- `NBITS`, the bits written since the last reset of the context, modulo 2^64 (R24). -/
  nbits : BitVec 64
  deriving DecidableEq, Repr

/-- The control and status register `CFG` (R26). Its reserved bits 7:4 read as 0 and are never written, so they have no
storage; `Cfg.byte` is the register's 8-bit value (log entry 7). -/
structure Cfg where
  /-- `MODE`, bit 0. -/
  mode : Mode
  /-- `OUTFORM`, bit 1. -/
  outform : OutForm
  /-- `KEYOK`, bit 2: `RK` holds the schedule of a 16-byte master key. -/
  keyOk : Bool
  /-- `IVOK`, bit 3: `IV` holds a 16-byte initialisation vector supplied at construction. -/
  ivOk : Bool
  deriving DecidableEq, Repr

/-- The cipher context: the document's CipherConfig, RoundKeySchedule and ChainState (R20, R26 to R29). -/
structure CipherContext where
  /-- `CFG` (R26). -/
  cfg : Cfg
  /-- `RK[0..31]`, the encryption round keys in order (R27). -/
  rk : RoundKeys
  /-- `IV`, first byte first (R28). -/
  iv : Block
  /-- `CHAIN`, the block carried across the blocks of a CBC command (R29). -/
  chain : Block
  deriving DecidableEq, Repr

/-- The engine: exactly one hash context and one cipher context (R20), and its two byte streams. There is no program
counter, no instruction memory and no other storage (R21, R40, R41). -/
structure State where
  /-- The hash context. -/
  hash : HashContext
  /-- The cipher context. -/
  cipher : CipherContext
  /-- The command bytes presented by the host and not yet consumed, first byte first (R40 `CMD`, R60, R62; log entry 1). -/
  cmd : Bytes
  /-- The bytes of all responses produced since reset, first byte first (R40 `RSP`, R53, R72; log entry 2). -/
  rsp : Bytes
  deriving DecidableEq, Repr

/-- Why the engine has no step. No command ends in one of these: an error of a command is a response, and the engine goes
on (R150, R161). -/
inductive Fault where
  /-- No command byte waits: "the engine waits for a command" (R170). Raised by `step`; safe (log entry 3). -/
  | noCommand
  /-- The packet at the front of the stream is not whole yet: "the engine has no step until the rest arrives" (R69).
  Raised by `step`; safe (log entry 3). -/
  | incompletePacket
  deriving DecidableEq, Repr

/-- Why the model gives an instruction no meaning. -/
inductive Refusal where
  /-- An instruction that has no meaning yet. Raised by `exec`; safe. No instruction of this model is in this case. -/
  | notModelled (mnemonic : String)
  deriving DecidableEq, Repr

/-- The fresh hash context: the initial constants, an empty buffer, a zero count (R36). -/
def HashContext.fresh : HashContext :=
  { v := Config.tables.hashIV, buf := [], nbits := 0 }

/-- `CFG` = 0x00: CBC, base64, no key, no IV (R36). -/
def Cfg.reset : Cfg :=
  { mode := .cbc, outform := .base64, keyOk := false, ivOk := false }

/-- The cipher context after reset, and after a `CINIT` that fails (R36, R122). -/
def CipherContext.reset : CipherContext :=
  { cfg := Cfg.reset, rk := Vector.replicate 32 0, iv := Vector.replicate 16 0, chain := Vector.replicate 16 0 }

/-- The engine after reset (R36, R170): both contexts at their reset values and no byte in either stream. -/
def State.reset : State :=
  { hash := HashContext.fresh, cipher := CipherContext.reset, cmd := [], rsp := [] }

end Sys2Proof.Machine
end

