-- ==== Sys2Proof/Machine/Flags.lean ====
section
/-! DEFINITION. The register `CFG` as its 8-bit value, and the status flags `KEYOK` and `IVOK` a command computes
(10_state.md R26). The engine has no other flag: there is no carry and no overflow indication (R14). -/

namespace Sys2Proof.Machine

/-- The bit of a mode selector: 0 = CBC, 1 = ECB (R26, R64). -/
def modeBit : Mode → Bool
  | .cbc => false
  | .ecb => true

/-- The mode a selector bit means (R26, R64). -/
def modeOfBit (b : Bool) : Mode :=
  if b then .ecb else .cbc

/-- The bit of an output representation selector: 0 = base64, 1 = text (R26, R64). -/
def outFormBit : OutForm → Bool
  | .base64 => false
  | .text => true

/-- The output representation a selector bit means (R26, R64). -/
def outFormOfBit (b : Bool) : OutForm :=
  if b then .text else .base64

/-- The 8-bit value of `CFG`: bits 7:4 read as 0, then `IVOK`, `KEYOK`, `OUTFORM`, `MODE` (R26). -/
def Cfg.byte (c : Cfg) : Byte :=
  0#4 ++ BitVec.ofBool c.ivOk ++ BitVec.ofBool c.keyOk ++ BitVec.ofBool (outFormBit c.outform) ++
    BitVec.ofBool (modeBit c.mode)

/-- The selectors and flags a `CFG` byte shows, as the host reads it from a response (R26, R74). -/
def cfgOfByte (b : Byte) : Cfg :=
  { mode := modeOfBit (b.getLsbD 0), outform := outFormOfBit (b.getLsbD 1), keyOk := b.getLsbD 2, ivOk := b.getLsbD 3 }

/-- The flag `IVOK` a `CINIT` computes: an IV is present and has exactly 16 bytes (R122). -/
def ivAccepted : Option Bytes → Bool
  | some iv => iv.length == 16
  | none => false

/-- `CFG` after a `CINIT` with a 16-byte key (R122). -/
def cfgConstructed (iv : Option Bytes) (mode : Mode) (outform : OutForm) : Cfg :=
  { mode := mode, outform := outform, keyOk := true, ivOk := ivAccepted iv }

/-- The condition of `INVALID_IV`: CBC mode without a 16-byte IV (R141, R154). -/
def ivMissing (c : Cfg) : Bool :=
  c.mode == .cbc && !c.ivOk

end Sys2Proof.Machine
end

