-- ==== Sys2Proof/Machine/Operands.lean ====
section
/-! DEFINITION. The operand forms: rotation (R14), big-endian packing of bytes into words and back (R13, R42 to R44),
and the cutting of byte sequences into blocks of a fixed size (R45). -/

namespace Sys2Proof.Machine

/-- `rotl(x, n)`: rotation to the left by `n mod 32` (R14, D10). -/
def rotl (x : Word) (n : Nat) : Word :=
  let m := n % 32
  (x <<< m) ||| (x >>> (32 - m))

/-- `be32(b0, b1, b2, b3)`: the first byte is the most significant (R13, R42). -/
def be32 (b0 b1 b2 b3 : Byte) : Word :=
  b0 ++ b1 ++ b2 ++ b3

/-- `unbe32(w)`: the bytes `w[31:24], w[23:16], w[15:8], w[7:0]` in that order (R13, R43). -/
def unbe32 (w : Word) : Bytes :=
  [w.extractLsb' 24 8, w.extractLsb' 16 8, w.extractLsb' 8 8, w.extractLsb' 0 8]

/-- `unbe64(n)`: the eight bytes of a 64-bit number, most significant first (R13, R43). -/
def unbe64 (n : BitVec 64) : Bytes :=
  unbe32 (n.extractLsb' 32 32) ++ unbe32 (n.extractLsb' 0 32)

/-- `words(s)`: the big-endian words of a byte sequence whose length is a multiple of 4 (R13). -/
def words : Bytes → List Word
  | b0 :: b1 :: b2 :: b3 :: rest => be32 b0 b1 b2 b3 :: words rest
  | _ => []

/-- `bytes(w0, w1, ...)`: the bytes of the words, in order (R13). -/
def bytesOf (ws : List Word) : Bytes :=
  ws.flatMap unbe32

/-- The block of `n` bytes at the start of a byte sequence, `s[0..n)`. Every caller has `n` bytes there (R100, R124). -/
def slice (n : Nat) (s : Bytes) : Vector Byte n :=
  Vector.ofFn fun i => s.getD i 0

/-- The first `n` cipher blocks of a byte sequence: block `i` is bytes `16 i` to `16 i + 15` (R45). -/
def takeBlocks : Nat → Bytes → List Block
  | 0, _ => []
  | n + 1, s => slice 16 s :: takeBlocks n (s.drop 16)

/-- The cipher blocks of a byte sequence whose length is a multiple of 16 (R45). -/
def blocks (s : Bytes) : List Block :=
  takeBlocks (s.length / 16) s

/-- The bytes of a list of cipher blocks, in order. -/
def blocksBytes (bs : List Block) : Bytes :=
  bs.flatMap fun b => b.toList

/-- `a ^ b` on 16-byte blocks: byte-wise exclusive or (42_mode.md). -/
def xorBlock (a b : Block) : Block :=
  Vector.zipWith (· ^^^ ·) a b

end Sys2Proof.Machine
end

