-- ==== Sys2Proof/WellFormed.lean ====
section
/-! DEFINITION. The instructions a packet can state: the length limits of 30_encoding.md R71, R79. -/

namespace Sys2Proof

namespace Instr

/-- The auxiliary length of a command: the number of key bytes at the start of the payload for `CINIT`, 0 for every
other opcode (R61). -/
def auxLength : Instr → Nat
  | hreset => 0
  | hwrite _ => 0
  | hdigest _ _ => 0
  | cinit key _ _ _ => key.length
  | cenc _ => 0
  | cdec _ => 0
  | cblk _ _ => 0

/-- The number of payload bytes fits the 32-bit field `LEN` (R61, R71, R79). -/
abbrev PayloadFits (i : Instr) : Prop := i.payload.length < 2 ^ 32

/-- The key of a `CINIT` fits the 8-bit field `ALEN` (R61, R71, R79). -/
abbrev KeyFits (i : Instr) : Prop := i.auxLength < 2 ^ 8

/-- A well-formed instruction is one that some legal packet encodes (R71, R79): a `CINIT` key is at most 255 bytes and
a payload is at most 2^32 - 1 bytes. A key of another length than 16 and an IV of any length are well-formed (R66). -/
abbrev WellFormed (i : Instr) : Prop := i.PayloadFits ∧ i.KeyFits

end Instr

end Sys2Proof
end

