-- ==== Sys2Proof/Decode.lean ====
section
/-! DEFINITION. Decoding of the command stream, total on any bytes, rejecting by name (30_encoding.md R60 to R70), and the
encoder written from the same tables (R61 to R65, R76). -/

namespace Sys2Proof

open Machine (be32 unbe32 unbe64 modeBit modeOfBit outFormBit outFormOfBit)

/-- The opcodes (R63). -/
inductive Opcode where
  | hreset
  | hwrite
  | hdigest
  | cinit
  | cenc
  | cdec
  | cblk
  deriving DecidableEq, Repr

/-- The opcode numbers (R63). -/
def Opcode.code : Opcode → Byte
  | .hreset => 0x01
  | .hwrite => 0x02
  | .hdigest => 0x03
  | .cinit => 0x10
  | .cenc => 0x11
  | .cdec => 0x12
  | .cblk => 0x13

/-- The opcode a byte selects; every other value is reserved (R63, R67). -/
def opcodeOf (b : Byte) : Option Opcode :=
  [Opcode.hreset, .hwrite, .hdigest, .cinit, .cenc, .cdec, .cblk].find? fun op => op.code == b

/-- The `MOD` bits an opcode uses; every other bit must be 0 (R64, R66). -/
def Opcode.modBits : Opcode → Byte
  | .hreset => 0x00
  | .hwrite => 0x00
  | .hdigest => 0x03
  | .cinit => 0x07
  | .cenc => 0x00
  | .cdec => 0x00
  | .cblk => 0x01

/-- The five fields of the 8-byte header (R61). -/
structure Header where
  opc : Byte
  modifier : Byte
  alen : Byte
  rsv : Byte
  len : Word
  deriving DecidableEq, Repr

/-- The header bytes, byte 0 first, `LEN` big-endian (R44, R61). -/
def Header.bytes (h : Header) : Bytes :=
  [h.opc, h.modifier, h.alen, h.rsv] ++ unbe32 h.len

/-- Why a header is illegal (R66): the column of the table it breaks. -/
inductive Illegal where
  /-- The opcode is not one of the seven. -/
  | reservedOpcode
  /-- `RSV` is not 0. -/
  | reservedByte
  /-- A `MOD` bit the opcode does not use is not 0. -/
  | reservedModifier
  /-- `ALEN` is not 0 outside `CINIT`, or is above `LEN` in it. -/
  | auxLength
  /-- `LEN` is not what the opcode and its modifier bits require. -/
  | payloadLength
  deriving DecidableEq, Repr

/-- What keeps the front of the stream from being a whole packet (R69). -/
inductive Shortage where
  /-- There is no byte. -/
  | nothing
  /-- Fewer than 8 header bytes. -/
  | header
  /-- Fewer than `LEN` payload bytes. -/
  | payload
  deriving DecidableEq, Repr

/-- What the decoder finds at the front of a byte stream, with the bytes after the packet (R62, R70). -/
inductive Decoded where
  | command (i : Instr) (rest : Bytes)
  | illegal (why : Illegal) (rest : Bytes)
  | short (why : Shortage)
  deriving DecidableEq, Repr

/-- The operands of a command cut from its payload, and the conditions of R66 that relate `MOD`, `ALEN` and `LEN`
(R64 to R66). -/
def operands (op : Opcode) (h : Header) (payload : Bytes) : Except Illegal Instr :=
  match op with
  | .hreset => if h.len = 0 then .ok .hreset else .error .payloadLength
  | .hwrite => .ok (.hwrite payload)
  | .hdigest =>
    if h.modifier.getLsbD 0 then .ok (.hdigest (some payload) (h.modifier.getLsbD 1))
    else if h.len = 0 then .ok (.hdigest none (h.modifier.getLsbD 1))
    else .error .payloadLength
  | .cinit =>
    if h.len.toNat < h.alen.toNat then .error .auxLength
    else if h.modifier.getLsbD 2 then
      .ok (.cinit (payload.take h.alen.toNat) (some (payload.drop h.alen.toNat)) (modeOfBit (h.modifier.getLsbD 0))
        (outFormOfBit (h.modifier.getLsbD 1)))
    else if h.len.toNat = h.alen.toNat then
      .ok (.cinit payload none (modeOfBit (h.modifier.getLsbD 0)) (outFormOfBit (h.modifier.getLsbD 1)))
    else .error .payloadLength
  | .cenc => .ok (.cenc payload)
  | .cdec => .ok (.cdec payload)
  | .cblk => .ok (.cblk payload (h.modifier.getLsbD 0))

/-- The command a header and its payload state, or why the header is illegal (R66, R67). Only a `CINIT` has an `ALEN`. -/
def decodePacket (h : Header) (payload : Bytes) : Except Illegal Instr :=
  match opcodeOf h.opc with
  | none => .error .reservedOpcode
  | some op =>
    if h.rsv ≠ 0 then .error .reservedByte
    else if h.modifier &&& ~~~op.modBits ≠ 0 then .error .reservedModifier
    else if op ≠ .cinit ∧ h.alen ≠ 0 then .error .auxLength
    else operands op h payload

/-- The decoder: 8 header bytes, then `LEN` payload bytes whatever the opcode is; the byte after them is byte 0 of the next
header (R60 to R62, R69, R70). -/
def decode : Bytes → Decoded
  | opc :: modifier :: alen :: rsv :: l0 :: l1 :: l2 :: l3 :: rest =>
    let h : Header := { opc := opc, modifier := modifier, alen := alen, rsv := rsv, len := be32 l0 l1 l2 l3 }
    if rest.length < h.len.toNat then .short .payload
    else
      match decodePacket h (rest.take h.len.toNat) with
      | .ok i => .command i (rest.drop h.len.toNat)
      | .error why => .illegal why (rest.drop h.len.toNat)
  | [] => .short .nothing
  | _ => .short .header

/-- The opcode of a command (R63). -/
def opcode : Instr → Opcode
  | .hreset => .hreset
  | .hwrite _ => .hwrite
  | .hdigest _ _ => .hdigest
  | .cinit _ _ _ _ => .cinit
  | .cenc _ => .cenc
  | .cdec _ => .cdec
  | .cblk _ _ => .cblk

/-- Three modifier bits, bit 2 first. -/
def modifierByte (b2 b1 b0 : Bool) : Byte :=
  0#5 ++ BitVec.ofBool b2 ++ BitVec.ofBool b1 ++ BitVec.ofBool b0

/-- The `MOD` byte of a command (R64). -/
def modifierOf : Instr → Byte
  | .hreset => 0
  | .hwrite _ => 0
  | .hdigest message hex => modifierByte false hex message.isSome
  | .cinit _ iv mode outform => modifierByte iv.isSome (outFormBit outform) (modeBit mode)
  | .cenc _ => 0
  | .cdec _ => 0
  | .cblk _ dec => modifierByte false false dec

/-- The header of a command (R61, R63 to R65, R76). -/
def headerOf (i : Instr) : Header :=
  { opc := (opcode i).code, modifier := modifierOf i, alen := BitVec.ofNat 8 i.auxLength, rsv := 0,
    len := BitVec.ofNat 32 i.payload.length }

/-- The packet of a command: its header, then its payload (R60, R76). -/
def encode (i : Instr) : Bytes :=
  (headerOf i).bytes ++ i.payload

/-- `n` bytes of a number, least significant byte first. -/
def lowBytes : Nat → Nat → Bytes
  | 0, _ => []
  | n + 1, w => BitVec.ofNat 8 w :: lowBytes n (w / 256)

/-- The packet that the number `w` of `nbits` bits states when its bits are numbered as spec/opcode_table.json numbers them:
bits 63:0 are the header read as one big-endian number, byte 0 of the header being bits 63:56 (R61); the bits above them are
the payload bytes in order, each the next eight bits; every bit above `nbits` is 0, and there are as many payload bytes as the
header's `LEN` says (log entry 9). -/
def tableWordPacket (nbits w : Nat) : Bytes :=
  let bits := w % 2 ^ nbits
  unbe64 (BitVec.ofNat 64 bits) ++ lowBytes (bits % 2 ^ 32) (bits / 2 ^ 64)

/-- The instruction the decoder reads from a word of the opcode table; none where it refuses (log entry 9). -/
def decodeTableWord (nbits w : Nat) : Option Instr :=
  match decode (tableWordPacket nbits w) with
  | .command i _ => some i
  | .illegal _ _ => none
  | .short _ => none

end Sys2Proof
end

