-- ==== Sys2Proof/Machine/Ops.lean ====
section
/-! DEFINITION. The named operations over the state: writing a context, producing the response (30_encoding.md R72 to R75),
ending a command in an error (60_exceptions.md R152), and what the host does to the two ports (R62, R170). -/

namespace Sys2Proof.Machine

/-- The statuses a response can carry. `PADDING_ERROR` (0x06) and the codes above it are never produced (R73, R157), so no
value of this type stands for them. -/
inductive Status where
  | ok
  | illegalCommand
  | invalidKeyLength
  | invalidIv
  | noKey
  | invalidLength
  deriving DecidableEq, Repr

/-- The status codes (R73). -/
def Status.code : Status → Byte
  | .ok => 0x00
  | .illegalCommand => 0x01
  | .invalidKeyLength => 0x02
  | .invalidIv => 0x03
  | .noKey => 0x04
  | .invalidLength => 0x05

/-- The status a code stands for; the codes that are never produced stand for none (R73). -/
def statusOfCode (b : Byte) : Option Status :=
  [Status.ok, .illegalCommand, .invalidKeyLength, .invalidIv, .noKey, .invalidLength].find? fun st => st.code == b

/-- A response packet: the status, the value of `CFG` after the command, and the data bytes (R72, R74). -/
structure Response where
  status : Status
  cfg : Cfg
  data : Bytes
  deriving DecidableEq, Repr

/-- The bytes of a response packet: `STATUS`, `CFGV`, 0, 0, the 32-bit big-endian `RLEN`, then the data (R44, R72). -/
def Response.bytes (r : Response) : Bytes :=
  [r.status.code, r.cfg.byte, 0, 0] ++ unbe32 (BitVec.ofNat 32 r.data.length) ++ r.data

/-- The response packet at the front of a response stream and the bytes after it, as the host reads them (R53, R72).
Nothing is read where the code is one that is never produced or the packet is not whole. -/
def readResponse : Bytes → Option (Response × Bytes)
  | st :: cf :: _ :: _ :: l0 :: l1 :: l2 :: l3 :: rest =>
    let n := (be32 l0 l1 l2 l3).toNat
    match statusOfCode st with
    | some status =>
      if rest.length < n then none
      else some ({ status := status, cfg := cfgOfByte cf, data := rest.take n }, rest.drop n)
    | none => none
  | _ => none

namespace State

/-- The hash context written whole. -/
def setHash (s : State) (h : HashContext) : State := { s with hash := h }

/-- The cipher context written whole. -/
def setCipher (s : State) (c : CipherContext) : State := { s with cipher := c }

/-- `CHAIN` written (R29). -/
def setChain (s : State) (b : Block) : State := { s with cipher := { s.cipher with chain := b } }

/-- The bytes waiting in the command stream, written (R62). -/
def setCmd (s : State) (bs : Bytes) : State := { s with cmd := bs }

/-- A response packet appended to the response stream (R53). -/
def emit (s : State) (r : Response) : State := { s with rsp := s.rsp ++ r.bytes }

/-- The host presents bytes: they follow those already waiting (R60, R173). -/
def present (s : State) (bs : Bytes) : State := { s with cmd := s.cmd ++ bs }

/-- The reset event (R170): every piece of state takes its reset value and any command byte received is discarded; the next
byte presented is byte 0 of a header. The responses already produced are the host's and stay (log entry 2). -/
def resetEvent (s : State) : State := { State.reset with rsp := s.rsp }

end State

/-- `respond(status, data)`: end the command and emit its response; `CFGV` is `CFG` as it stands now (R15, R72, R74). -/
def respond (st : Status) (data : Bytes) (s : State) : Host.Outcome State Fault Refusal :=
  .next (s.emit { status := st, cfg := s.cipher.cfg, data := data })

/-- `raise E`, the engine's counterpart of taking an exception (R15, R152): the command ends with the status and no data,
and no state is written; a command calls it before it writes anything. There is no return from it: the engine goes on with
the next command (R161). -/
def raise (e : Status) (s : State) : Host.Outcome State Fault Refusal :=
  respond e [] s

/-- `INVALID_KEY_LENGTH`, the one error that writes state: the cipher context takes its reset value (R152, R153). -/
def raiseInvalidKeyLength (s : State) : Host.Outcome State Fault Refusal :=
  raise .invalidKeyLength (s.setCipher CipherContext.reset)

/-- The response to a packet whose header is illegal, the packet already consumed: no state is changed (R67, R151). -/
def raiseIllegalCommand (s : State) : Host.Outcome State Fault Refusal :=
  raise .illegalCommand s

end Sys2Proof.Machine
end

