-- ==== Sys2Proof/Machine/Cipher.lean ====
section
/-! DEFINITION. KeySchedule and BlockTransform: the pure functions (41_keyschedule_block.md R110 to R118), for every value
of the tables, and the commands CINIT and CBLK (R122, R123). -/

namespace Sys2Proof.Machine

/-- `tau(x)`: each byte of the word replaced in place through `SBOX` (R110). -/
def tau (T : Tables) (x : Word) : Word :=
  be32 (T.sbox (x.extractLsb' 24 8)) (T.sbox (x.extractLsb' 16 8)) (T.sbox (x.extractLsb' 8 8)) (T.sbox (x.extractLsb' 0 8))

/-- `L(x)`, the linear transform of the block transform (R111). -/
def lin (x : Word) : Word := x ^^^ rotl x 2 ^^^ rotl x 10 ^^^ rotl x 18 ^^^ rotl x 24

/-- `L'(x)`, the linear transform of the key schedule (R112). -/
def linKey (x : Word) : Word := x ^^^ rotl x 13 ^^^ rotl x 23

/-- `T(x) = L(tau(x))`, for the block transform (R113, R119). -/
def mixBlock (T : Tables) (x : Word) : Word := lin (tau T x)

/-- `T'(x) = L'(tau(x))`, for the key schedule (R113, R119). -/
def mixKey (T : Tables) (x : Word) : Word := linKey (tau T x)

/-- The last four words of the 36-word scratch, `K[i..i+3]` or `X[i..i+3]` (R32). -/
structure Quad where
  x0 : Word
  x1 : Word
  x2 : Word
  x3 : Word
  deriving DecidableEq, Repr

/-- The four big-endian words of a block (R42, R114, R120). -/
def loadQuad (b : Block) : Quad :=
  { x0 := be32 b[0] b[1] b[2] b[3], x1 := be32 b[4] b[5] b[6] b[7], x2 := be32 b[8] b[9] b[10] b[11],
    x3 := be32 b[12] b[13] b[14] b[15] }

/-- `K[0..3] = MK[0..3] ^ FK[0..3]` (R114). -/
def keyQuad (T : Tables) (key : Block) : Quad :=
  let m := loadQuad key
  { x0 := m.x0 ^^^ T.fk[0], x1 := m.x1 ^^^ T.fk[1], x2 := m.x2 ^^^ T.fk[2], x3 := m.x3 ^^^ T.fk[3] }

/-- One step of the key recurrence, `K[i+4] = K[i] ^ T'(K[i+1] ^ K[i+2] ^ K[i+3] ^ CK[i])` (R115). -/
def keyRound (T : Tables) (q : Quad) (ck : Word) : Quad :=
  { x0 := q.x1, x1 := q.x2, x2 := q.x3, x3 := q.x0 ^^^ mixKey T (q.x1 ^^^ q.x2 ^^^ q.x3 ^^^ ck) }

/-- The words the key recurrence produces, one for each round constant, in ascending order (R115). -/
def keyWords (T : Tables) : List Word → Quad → List Word
  | [], _ => []
  | ck :: cks, q => (keyRound T q ck).x3 :: keyWords T cks (keyRound T q ck)

/-- `KeySchedule(key) = (K[4], ..., K[35])`, a pure function of the 16 key bytes and the tables (R115). -/
def keySchedule (T : Tables) (key : Block) : RoundKeys :=
  let ks := keyWords T T.ck.toList (keyQuad T key)
  Vector.ofFn fun i => ks.getD i 0

/-- The decryption order of the round keys, `RKdec[i] = RK[31 - i]` (R116). -/
def reverseKeys (rk : RoundKeys) : RoundKeys :=
  Vector.ofFn fun i => rk[31 - i.val]

/-- One round of the block transform, `X[i+4] = X[i] ^ T(X[i+1] ^ X[i+2] ^ X[i+3] ^ rk[i])` (R117). -/
def blockRound (T : Tables) (q : Quad) (k : Word) : Quad :=
  { x0 := q.x1, x1 := q.x2, x2 := q.x3, x3 := q.x0 ^^^ mixBlock T (q.x1 ^^^ q.x2 ^^^ q.x3 ^^^ k) }

/-- The output block `(X[35], X[34], X[33], X[32])`: the last four words in reversed order (R43, R117). -/
def storeReversed (q : Quad) : Block :=
  slice 16 (bytesOf [q.x3, q.x2, q.x1, q.x0])

/-- `BlockTransform(rk, Blk)`: 32 rounds over an ordered list of round keys (R117). -/
def blockTransform (T : Tables) (rk : RoundKeys) (b : Block) : Block :=
  storeReversed (rk.toList.foldl (blockRound T) (loadQuad b))

/-- `Enc(Blk)`: the round keys in encryption order (R118). -/
def encBlock (T : Tables) (rk : RoundKeys) (b : Block) : Block :=
  blockTransform T rk b

/-- `Dec(Blk)`: the same transform with the round keys in decryption order (R118). -/
def decBlock (T : Tables) (rk : RoundKeys) (b : Block) : Block :=
  blockTransform T (reverseKeys rk) b

/-- The register `IV` after a `CINIT`: the IV of exactly 16 bytes, else zero (R28, R122). -/
def ivRegister : Option Bytes → Block
  | some iv => if iv.length = 16 then slice 16 iv else Vector.replicate 16 0
  | none => Vector.replicate 16 0

/-- The cipher context a `CINIT` with a 16-byte key constructs: nothing of the old one survives (R122). -/
def constructCipher (T : Tables) (key : Bytes) (iv : Option Bytes) (mode : Mode) (outform : OutForm) : CipherContext :=
  { cfg := cfgConstructed iv mode outform, rk := keySchedule T (slice 16 key), iv := ivRegister iv,
    chain := Vector.replicate 16 0 }

/-- `CINIT`: construct the cipher context, or reset it when the key is not 16 bytes (R122). The key length is checked alone
and first; a missing or wrong-length IV is no error here (90_conflicts.md C3). -/
def execCinit (key : Bytes) (iv : Option Bytes) (mode : Mode) (outform : OutForm) (s : State) :
    Host.Outcome State Fault Refusal :=
  if key.length = 16 then respond .ok [] (s.setCipher (constructCipher Config.tables key iv mode outform))
  else raiseInvalidKeyLength s

/-- `CBLK`: one block transform, no padding, no chaining; the errors in the order of the rule (R123, R159). -/
def execCblk (block : Bytes) (dec : Bool) (s : State) : Host.Outcome State Fault Refusal :=
  if s.cipher.cfg.keyOk = false then raise .noKey s
  else if block.length ≠ 16 then raise .invalidLength s
  else if dec then respond .ok (decBlock Config.tables s.cipher.rk (slice 16 block)).toList s
  else respond .ok (encBlock Config.tables s.cipher.rk (slice 16 block)).toList s

end Sys2Proof.Machine
end

