-- ==== Sys2Proof/Machine/Hash.lean ====
section
/-! DEFINITION. HashEngine: the pure functions of the hash (40_hash.md R80 to R93) and the commands HRESET, HWRITE and HDIGEST
(R94 to R96). -/

namespace Sys2Proof.Machine

/-- `P0(x) = x ^ rotl(x, 9) ^ rotl(x, 17)` (R80). -/
def p0 (x : Word) : Word := x ^^^ rotl x 9 ^^^ rotl x 17

/-- `P1(x) = x ^ rotl(x, 15) ^ rotl(x, 23)` (R80). -/
def p1 (x : Word) : Word := x ^^^ rotl x 15 ^^^ rotl x 23

/-- `FF_j(x, y, z)`: parity before round 16, majority from it on (R81). -/
def ff (j : Nat) (x y z : Word) : Word :=
  if j < 16 then x ^^^ y ^^^ z else (x &&& y) ||| (x &&& z) ||| (y &&& z)

/-- `GG_j(x, y, z)`: parity before round 16, choose from it on (R82). -/
def gg (j : Nat) (x y z : Word) : Word :=
  if j < 16 then x ^^^ y ^^^ z else (x &&& y) ||| (~~~x &&& z)

/-- `T_j` (R83). -/
def tConst (j : Nat) : Word :=
  if j < 16 then Config.tLo else Config.tHi

/-- The next word of the message expansion, `W[j]` with `j` the number of words so far (R84). -/
def nextWord (w : List Word) : Word :=
  let j := w.length
  p1 (w.getD (j - 16) 0 ^^^ w.getD (j - 9) 0 ^^^ rotl (w.getD (j - 3) 0) 15) ^^^ rotl (w.getD (j - 13) 0) 7 ^^^
    w.getD (j - 6) 0

/-- `n` further words of the message expansion, in ascending order (R84). -/
def extendWords : Nat → List Word → List Word
  | 0, w => w
  | n + 1, w => extendWords n (w ++ [nextWord w])

/-- `Expand(B)`: the words `W[0..67]` of a 64-byte block (R84). -/
def expand (b : HashBlock) : List Word :=
  extendWords 52 (words b.toList)

/-- `W'[j] = W[j] ^ W[j+4]`, read from the list `W[0..67]` (R85). -/
def wPrime (w : List Word) (j : Nat) : Word :=
  w.getD j 0 ^^^ w.getD (j + 4) 0

/-- The working words `A` to `H` of one compression (R31, R86). -/
structure Working where
  a : Word
  b : Word
  c : Word
  d : Word
  e : Word
  f : Word
  g : Word
  h : Word
  deriving DecidableEq, Repr

/-- The working words loaded from the running digest (R86). -/
def loadWorking (v : Digest8) : Working :=
  { a := v[0], b := v[1], c := v[2], d := v[3], e := v[4], f := v[5], g := v[6], h := v[7] }

/-- Round `j`, given the expanded words `W[j]` and `W'[j]`; every assignment reads the words at the start of the round
(R87; 90_conflicts.md C1 for `E <- P0(TT2)`). -/
def hashRound (j : Nat) (wj wj' : Word) (r : Working) : Working :=
  let ss1 := rotl (rotl r.a 12 + r.e + rotl (tConst j) j) 7
  let ss2 := ss1 ^^^ rotl r.a 12
  let tt1 := ff j r.a r.b r.c + r.d + ss2 + wj'
  let tt2 := gg j r.e r.f r.g + r.h + ss1 + wj
  { a := tt1, b := r.a, c := rotl r.b 9, d := r.c, e := p0 tt2, f := r.e, g := rotl r.f 19, h := r.g }

/-- The working words after the rounds `0` to `n - 1` over the expanded words `w` (R87). -/
def hashRounds (w : List Word) (n : Nat) (r : Working) : Working :=
  (List.range n).foldl (fun r j => hashRound j (w.getD j 0) (wPrime w j) r) r

/-- The feed-forward: exclusive or of the working words into the running digest (R88). -/
def feedForward (v : Digest8) (r : Working) : Digest8 :=
  #v[v[0] ^^^ r.a, v[1] ^^^ r.b, v[2] ^^^ r.c, v[3] ^^^ r.d, v[4] ^^^ r.e, v[5] ^^^ r.f, v[6] ^^^ r.g, v[7] ^^^ r.h]

/-- `Compress(V, Blk)`, a pure function of the running digest and a block of exactly 64 bytes (R88, R100). -/
def compress (v : Digest8) (b : HashBlock) : Digest8 :=
  feedForward v (hashRounds (expand b) 64 (loadWorking v))

/-- The digest after `n` whole 64-byte blocks taken from the front of `s`, and the bytes that remain (R89). -/
def absorbBlocks : Nat → Digest8 → Bytes → Digest8 × Bytes
  | 0, v, s => (v, s)
  | n + 1, v, s => absorbBlocks n (compress v (slice 64 s)) (s.drop 64)

/-- `Absorb`: append the data to the pending bytes, consume 64-byte blocks while at least 64 bytes remain, which is
`|s| / 64` times, and add eight to the counter for every byte, modulo 2^64 (R24, R89). -/
def absorb (h : HashContext) (data : Bytes) : HashContext :=
  let s := h.buf ++ data
  let r := absorbBlocks (s.length / 64) h.v s
  { v := r.1, buf := r.2, nbits := h.nbits + BitVec.ofNat 64 (8 * data.length) }

/-- The number of zero bytes of the padding, `(55 - b) mod 64` for `b` pending bytes (R90). -/
def zeroFill (b : Nat) : Nat :=
  (55 + (64 - b % 64)) % 64

/-- `Fill(buf, n)`: the marker byte, the zero fill, and the 64-bit big-endian bit count (R90). -/
def fill (buf : Bytes) (n : BitVec 64) : Bytes :=
  buf ++ [Config.padMarker] ++ List.replicate (zeroFill buf.length) 0 ++ unbe64 n

/-- `Finalize(V, buf, n)`: one compression, or two when the padded tail has 128 bytes (R91). -/
def finalize (h : HashContext) : Digest8 :=
  let p := fill h.buf h.nbits
  let v1 := compress h.v (slice 64 p)
  if p.length = 128 then compress v1 (slice 64 (p.drop 64)) else v1

/-- `Digest(V)`: the eight registers in order, big-endian within a register (R43, R92). -/
def digestBytes (v : Digest8) : Bytes :=
  bytesOf v.toList

/-- The lowercase ASCII character of a nibble value (R93). -/
def hexChar (v : BitVec 4) : Byte :=
  if v.toNat ≤ 9 then BitVec.ofNat 8 (0x30 + v.toNat) else BitVec.ofNat 8 (0x61 + (v.toNat - 10))

/-- `Hex(d)`: two characters a byte, the high nibble first (R93). -/
def hexBytes (d : Bytes) : Bytes :=
  d.flatMap fun b => [hexChar (b.extractLsb' 4 4), hexChar (b.extractLsb' 0 4)]

/-- The hash context an `HDIGEST` finalises: the supplied message written to a fresh context, or the context as it stands
(R96). A supplied empty message counts as supplied (D13). -/
def digestContext (h : HashContext) : Option Bytes → HashContext
  | some message => absorb HashContext.fresh message
  | none => h

/-- The response data of an `HDIGEST` (R75, R96). -/
def digestData (v : Digest8) (hex : Bool) : Bytes :=
  if hex then hexBytes (digestBytes v) else digestBytes v

/-- `HRESET`: the hash context takes its fresh value (R94). -/
def execHreset (s : State) : Host.Outcome State Fault Refusal :=
  respond .ok [] (s.setHash HashContext.fresh)

/-- `HWRITE data`: absorb the payload (R95). -/
def execHwrite (data : Bytes) (s : State) : Host.Outcome State Fault Refusal :=
  respond .ok [] (s.setHash (absorb s.hash data))

/-- `HDIGEST [message], raw|hex`: finalise, emit the digest, and leave the context fresh (R96). -/
def execHdigest (message : Option Bytes) (hex : Bool) (s : State) : Host.Outcome State Fault Refusal :=
  let vf := finalize (digestContext s.hash message)
  respond .ok (digestData vf hex) (s.setHash HashContext.fresh)

end Sys2Proof.Machine
end

