-- ==== Sys2Proof/Machine/ModeWrapper.lean ====
section
/-! DEFINITION. ModeWrapper: the padding controller (42_mode.md R130 to R133), the two modes in both directions (R135 to
R138), and the commands CENC and CDEC (R139, R140). -/

namespace Sys2Proof.Machine

/-- `N = 16 - (L mod 16)`, the number of padding bytes of a plaintext of `L` bytes (R130). -/
def padCount (L : Nat) : Nat := 16 - L % 16

/-- `Pad(p)`: `N` bytes each holding the value `N`, always applied (R130). -/
def pad (p : Bytes) : Bytes :=
  p ++ List.replicate (padCount p.length) (BitVec.ofNat 8 (padCount p.length))

/-- `Depad(q)` for a non-empty `q`: the last byte, as a number, says how many bytes go; nothing else is looked at (R131).
A count above the length leaves the empty sequence, by the saturation of `-` on natural numbers (R133; log entry 6). -/
def depad (q : Bytes) : Bytes :=
  q.take (q.length - (q.getD (q.length - 1) 0).toNat)

/-- ECB: every block transformed independently, for either direction (R135, R136). -/
def ecb (f : Block → Block) (qs : List Block) : List Block :=
  qs.map f

/-- CBC encryption from a chain value: the ciphertext blocks, and the chain after the last (R137). -/
def cbcEncrypt (enc : Block → Block) : Block → List Block → List Block × Block
  | chain, [] => ([], chain)
  | chain, q :: qs =>
    let c := enc (xorBlock q chain)
    let r := cbcEncrypt enc c qs
    (c :: r.1, r.2)

/-- CBC decryption from a chain value: the plaintext blocks, and the chain after the last, which is the ciphertext input of
each block in turn (R138). -/
def cbcDecrypt (dec : Block → Block) : Block → List Block → List Block × Block
  | chain, [] => ([], chain)
  | chain, q :: qs =>
    let p := xorBlock (dec q) chain
    let r := cbcDecrypt dec q qs
    (p :: r.1, r.2)

/-- The blocks `CENC` makes of the blocks of a padded plaintext, and `CHAIN` after it: loaded from `IV` and written in CBC
mode only (R29, R135, R137). -/
def encryptBlocks (c : CipherContext) (qs : List Block) : List Block × Block :=
  match c.cfg.mode with
  | .ecb => (ecb (encBlock Config.tables c.rk) qs, c.chain)
  | .cbc => cbcEncrypt (encBlock Config.tables c.rk) c.iv qs

/-- The blocks `CDEC` makes of the blocks of a ciphertext, and `CHAIN` after it (R29, R136, R138). -/
def decryptBlocks (c : CipherContext) (qs : List Block) : List Block × Block :=
  match c.cfg.mode with
  | .ecb => (ecb (decBlock Config.tables c.rk) qs, c.chain)
  | .cbc => cbcDecrypt (decBlock Config.tables c.rk) c.iv qs

/-- `CENC plaintext`: pad and encrypt a whole message; the errors in the order of the rule, before any state is written
(R134, R139, R159). -/
def execCenc (plaintext : Bytes) (s : State) : Host.Outcome State Fault Refusal :=
  if s.cipher.cfg.keyOk = false then raise .noKey s
  else if ivMissing s.cipher.cfg then raise .invalidIv s
  else if Config.maxPlaintext < plaintext.length then raise .invalidLength s
  else
    let r := encryptBlocks s.cipher (blocks (pad plaintext))
    respond .ok (blocksBytes r.1) (s.setChain r.2)

/-- `CDEC ciphertext`: decrypt a whole message and remove the padding; the errors in the order of the rule, before any state
is written (R140, R159). -/
def execCdec (ciphertext : Bytes) (s : State) : Host.Outcome State Fault Refusal :=
  if s.cipher.cfg.keyOk = false then raise .noKey s
  else if ivMissing s.cipher.cfg then raise .invalidIv s
  else if ciphertext.length = 0 ∨ ciphertext.length % 16 ≠ 0 then raise .invalidLength s
  else
    let r := decryptBlocks s.cipher (blocks ciphertext)
    respond .ok (depad (blocksBytes r.1)) (s.setChain r.2)

end Sys2Proof.Machine
end

