-- ==== Sys2Proof/Machine/Dispatch.lean ====
section
/-! DEFINITION. The meaning of every command: one arm per constructor of `Instr`. -/

namespace Sys2Proof.Machine

def exec (i : Instr) (s : State) : Host.Outcome State Fault Refusal :=
  match i with
  | .hreset => Sys2Proof.Machine.execHreset s
  | .hwrite data => Sys2Proof.Machine.execHwrite data s
  | .hdigest message hex => Sys2Proof.Machine.execHdigest message hex s
  | .cinit key iv mode outform => Sys2Proof.Machine.execCinit key iv mode outform s
  | .cenc plaintext => Sys2Proof.Machine.execCenc plaintext s
  | .cdec ciphertext => Sys2Proof.Machine.execCdec ciphertext s
  | .cblk block dec => Sys2Proof.Machine.execCblk block dec s

end Sys2Proof.Machine
end

