-- ==== Sys2Proof/Machine/Step.lean ====
section
/-! DEFINITION. One step of the engine: the packet at the front of the command stream is consumed and executed to its
response (10_state.md R21, 20_memory.md R47, R48, 30_encoding.md R62, R67, R69). -/

namespace Sys2Proof.Machine

/-- One command. The whole packet leaves the stream, legal or not; an illegal one is answered with `ILLEGAL_COMMAND` (R67);
where no whole packet waits there is no step (R69, R170). -/
def step (s : State) : Host.Outcome State Fault Refusal :=
  match decode s.cmd with
  | .command i rest => exec i (s.setCmd rest)
  | .illegal _ rest => raiseIllegalCommand (s.setCmd rest)
  | .short .nothing => .fault .noCommand
  | .short .header => .fault .incompletePacket
  | .short .payload => .fault .incompletePacket

/-- The state with the packet of a table word put at the front of the command stream, where `step` takes its next command;
the bytes that waited there follow it (log entries 1 and 9). -/
def State.withFetchWord (s : State) (nbits w : Nat) : State :=
  s.setCmd (tableWordPacket nbits w ++ s.cmd)

end Sys2Proof.Machine
end

