-- ==== Sys2Proof/Machine/Asm.lean ====
section
/-! DEFINITION. The textual form of commands (30_encoding.md R76, R77) as an assembler from characters to commands, and the
expansion of the document's software interface into commands (R78). None of it is engine behaviour. -/

namespace Sys2Proof.Machine

/-- The tokens of a line of assembler text (R76): a byte-sequence operand is one token. -/
inductive Token where
  | word (w : List Char)
  | bytes (b : Bytes)
  | comma
  | equals
  deriving DecidableEq, Repr

/-- Where the lexer stands: between tokens, in a word, in a quoted string, or in a hexadecimal string. What has been read of
the token is held last character first. -/
inductive LexState where
  | between
  | inWord (acc : List Char)
  | inQuoted (acc : Bytes)
  | inHex (acc : List (BitVec 4))
  deriving DecidableEq, Repr

/-- The double quote. -/
def quoteChar : Char := Char.ofNat 0x22

/-- The characters of mnemonics, qualifiers and option names (R76). -/
def isWordChar (c : Char) : Bool :=
  c.isAlphanum || c == '.'

/-- The token a separator stands for: none for a blank (R76). A character that is no separator gives nothing. -/
def separator (c : Char) : Option (List Token) :=
  if c = ',' then some [.comma]
  else if c = '=' then some [.equals]
  else if c = ' ' ∨ c = Char.ofNat 9 then some []
  else none

/-- The value of a hexadecimal digit (R76). -/
def hexDigit (c : Char) : Option (BitVec 4) :=
  if c.isDigit then some (BitVec.ofNat 4 (c.toNat - 0x30))
  else if 0x61 ≤ c.toNat ∧ c.toNat ≤ 0x66 then some (BitVec.ofNat 4 (c.toNat - 0x61 + 10))
  else if 0x41 ≤ c.toNat ∧ c.toNat ≤ 0x46 then some (BitVec.ofNat 4 (c.toNat - 0x41 + 10))
  else none

/-- The bytes of an even number of hexadecimal digits, the high nibble of each first (R76). -/
def pairNibbles : List (BitVec 4) → Option Bytes
  | [] => some []
  | [_] => none
  | h :: l :: rest => (pairNibbles rest).map ((h ++ l : BitVec (4 + 4)) :: ·)

/-- The tokens of a line; `#` outside an operand starts a comment (R76). Nothing where the line is not of the syntax. -/
def lexFrom : LexState → List Char → Option (List Token)
  | .between, [] => some []
  | .inWord acc, [] => some [.word acc.reverse]
  | .inQuoted _, [] => none
  | .inHex _, [] => none
  | .between, c :: cs =>
    if c = '#' then some []
    else if c = quoteChar then lexFrom (.inQuoted []) cs
    else if isWordChar c then lexFrom (.inWord [c]) cs
    else
      match separator c with
      | some ts => (lexFrom .between cs).map (ts ++ ·)
      | none => none
  | .inWord acc, c :: cs =>
    if isWordChar c then lexFrom (.inWord (c :: acc)) cs
    else if c = '#' then some [.word acc.reverse]
    else if c = quoteChar then if acc = ['x'] then lexFrom (.inHex []) cs else none
    else
      match separator c with
      | some ts => (lexFrom .between cs).map (.word acc.reverse :: ts ++ ·)
      | none => none
  | .inQuoted acc, c :: cs =>
    if c = quoteChar then (lexFrom .between cs).map (.bytes acc.reverse :: ·)
    else if c.toNat < 0x80 then lexFrom (.inQuoted (BitVec.ofNat 8 c.toNat :: acc)) cs
    else none
  | .inHex acc, c :: cs =>
    if c = quoteChar then
      match pairNibbles acc.reverse with
      | some b => (lexFrom .between cs).map (.bytes b :: ·)
      | none => none
    else
      match hexDigit c with
      | some d => lexFrom (.inHex (d :: acc)) cs
      | none => none

/-- The qualifier of an `HDIGEST`, which has no default and must be written (R77): true for `hex`. -/
def digestForm (q : List Char) : Option Bool :=
  if q = "raw".toList then some false else if q = "hex".toList then some true else none

/-- `, iv=<bytes>` where it is written (R76). -/
def takeIv : List Token → Option Bytes × List Token
  | .comma :: .word n :: .equals :: .bytes b :: rest =>
    if n = "iv".toList then (some b, rest) else (none, .comma :: .word n :: .equals :: .bytes b :: rest)
  | ts => (none, ts)

/-- `, <name>=<value>` where it is written (R76). -/
def takeOption (name : List Char) : List Token → Option (List Char) × List Token
  | .comma :: .word n :: .equals :: .word v :: rest =>
    if n = name then (some v, rest) else (none, .comma :: .word n :: .equals :: .word v :: rest)
  | ts => (none, ts)

/-- The mode a qualifier selects; omitted, the default `cbc` (R77). -/
def asmMode : Option (List Char) → Option Mode
  | none => some .cbc
  | some v => if v = "cbc".toList then some .cbc else if v = "ecb".toList then some .ecb else none

/-- The output form a qualifier selects; omitted, the default `base64` (R77). -/
def asmOutForm : Option (List Char) → Option OutForm
  | none => some .base64
  | some v => if v = "base64".toList then some .base64 else if v = "text".toList then some .text else none

/-- A `CINIT` from its key and the options that follow it, in the order of R76; `iv=` omitted means no IV (R77). -/
def asmCinit (key : Bytes) (opts : List Token) : Option Instr :=
  let iv := takeIv opts
  let mode := takeOption "mode".toList iv.2
  let out := takeOption "out".toList mode.2
  match asmMode mode.1, asmOutForm out.1, out.2 with
  | some m, some o, [] => some (.cinit key iv.1 m o)
  | _, _, _ => none

/-- The command of a mnemonic and its operand tokens (R76). -/
def asmCommand (w : List Char) (args : List Token) : Option Instr :=
  if w = "HRESET".toList then
    match args with
    | [] => some .hreset
    | _ => none
  else if w = "HWRITE".toList then
    match args with
    | [.bytes b] => some (.hwrite b)
    | _ => none
  else if w = "HDIGEST".toList then
    match args with
    | [.bytes b, .comma, .word q] => (digestForm q).map (Instr.hdigest (some b))
    | [.comma, .word q] => (digestForm q).map (Instr.hdigest none)
    | _ => none
  else if w = "CINIT".toList then
    match args with
    | .word n :: .equals :: .bytes key :: opts => if n = "key".toList then asmCinit key opts else none
    | _ => none
  else if w = "CENC".toList then
    match args with
    | [.bytes b] => some (.cenc b)
    | _ => none
  else if w = "CDEC".toList then
    match args with
    | [.bytes b] => some (.cdec b)
    | _ => none
  else if w = "CBLK.E".toList then
    match args with
    | [.bytes b] => some (.cblk b false)
    | _ => none
  else if w = "CBLK.D".toList then
    match args with
    | [.bytes b] => some (.cblk b true)
    | _ => none
  else none

/-- One line of assembler text: at most one command; a blank or comment line states none. Nothing where the line is not of
the syntax (R76). -/
def assembleLine (line : List Char) : Option (Option Instr) :=
  match lexFrom .between line with
  | some [] => some none
  | some (.word w :: args) => (asmCommand w args).map some
  | some _ => none
  | none => none

/-- The calls of the document's software interface, on byte sequences: the conversions to and from text and base64 are the
boundary layer's and out of scope (00_scope.md R4, 30_encoding.md R78). -/
inductive SoftwareCall where
  /-- `write(bytes)`. -/
  | write (b : Bytes)
  /-- `digest(message, encoding)`, the message a byte sequence or absent; `hex` says the encoding. -/
  | digest (message : Option Bytes) (hex : Bool)
  /-- Reset of a HashState. -/
  | resetHash
  /-- Construction of a cipher. -/
  | newCipher (key : Bytes) (iv : Option Bytes) (mode : Mode) (outform : OutForm)
  /-- `encrypt`, after the text has become bytes. -/
  | encrypt (plaintext : Bytes)
  /-- `decrypt`, after the representation has become bytes. -/
  | decrypt (ciphertext : Bytes)
  deriving DecidableEq, Repr

/-- The command a software call expands into (R78). -/
def expandCall : SoftwareCall → Instr
  | .write b => .hwrite b
  | .digest message hex => .hdigest message hex
  | .resetHash => .hreset
  | .newCipher key iv mode outform => .cinit key iv mode outform
  | .encrypt plaintext => .cenc plaintext
  | .decrypt ciphertext => .cdec ciphertext

end Sys2Proof.Machine
end

