-- ==== Sys2Proof/Safety.lean ====
section
/-! DEFINITION. The terms in which claims are made: the invariants that hold between commands (10_state.md R25, R30), the
legal headers and whole packets (30_encoding.md R62, R66), the hash function (40_hash.md R97), the error a command must
report (60_exceptions.md R159), and a run over several commands (70_reset_and_hazards.md R182). -/

namespace Sys2Proof.Safety

open Sys2Proof.Machine

/-- The whole 64-byte blocks of a byte sequence, in order. -/
def wholeBlocks (m : Bytes) : List HashBlock :=
  (List.range (m.length / 64)).map fun i => slice 64 (m.drop (64 * i))

/-- `Compress` folded over the whole blocks of a byte sequence. -/
def foldCompress (v : Digest8) (m : Bytes) : Digest8 :=
  (wholeBlocks m).foldl compress v

/-- The hash context after the bytes `m` since its last reset (R25 d, e; R24 for the count modulo 2^64). -/
structure Written (h : HashContext) (m : Bytes) : Prop where
  v : h.v = foldCompress Config.tables.hashIV m
  buf : h.buf = m.drop (64 * (m.length / 64))
  nbits : h.nbits = BitVec.ofNat 64 (8 * m.length)

/-- The message padded as rule R97 pads it: marker, zeros up to 56 modulo 64, and the 64-bit bit length. -/
def padMessage (m : Bytes) : Bytes :=
  m ++ [0x80] ++ List.replicate ((55 + (64 - m.length % 64)) % 64) 0 ++ unbe64 (BitVec.ofNat 64 (8 * m.length))

/-- The hash function `H(m)` of rule R97: `Compress` folded from `HASH_IV` over the padded message, serialised big-endian,
register 0 first (R92). -/
def hashOf (m : Bytes) : Bytes :=
  (foldCompress Config.tables.hashIV (padMessage m)).toList.flatMap unbe32

/-- The invariant of the hash context: it is the context after some bytes (R25). -/
def HashInv (h : HashContext) : Prop := ∃ m, Written h m

/-- The invariant of the cipher context (R30 b to e; its clause a is that `Cfg.byte` reads bits 7:4 as 0). -/
structure CipherInv (c : CipherContext) : Prop where
  /-- R30 b: without a key the context is exactly the reset context. -/
  noKey : c.cfg.keyOk = false → c = CipherContext.reset
  /-- R30 c. -/
  ivNeedsKey : c.cfg.ivOk = true → c.cfg.keyOk = true
  /-- R30 d. -/
  noIv : c.cfg.ivOk = false → c.iv = Vector.replicate 16 0
  /-- R30 e: with a key, the round keys are the schedule of some 16-byte key. -/
  schedule : c.cfg.keyOk = true → ∃ key : Block, c.rk = keySchedule Config.tables key

/-- A response packet the engine may produce: no data unless the status is `OK`, and a length that fits `RLEN` (R72). -/
structure ResponseInv (r : Response) : Prop where
  noData : r.status ≠ .ok → r.data = []
  fits : r.data.length < 2 ^ 32

/-- The response stream is a sequence of whole response packets (R53, R72). -/
def ResponsesInv (rsp : Bytes) : Prop :=
  ∃ rs : List Response, (∀ r ∈ rs, ResponseInv r) ∧ rsp = rs.flatMap Response.bytes

/-- What holds of the engine whenever no command is executing. -/
structure Inv (s : State) : Prop where
  hash : HashInv s.hash
  cipher : CipherInv s.cipher
  responses : ResponsesInv s.rsp

/-- One round of the compression as rule R87 writes it: from the working words `r` and the expanded words `W[j]`, `W'[j]` to the
working words `r'`, with `FF`, `GG`, `T_j` and `P0` spelled out (R80 to R83). -/
def RoundRelation (j : Nat) (w w' : Word) (r r' : Working) : Prop :=
  let t : Word := if j < 16 then 0x79cc4519 else 0x7a879d8a
  let ffj := if j < 16 then r.a ^^^ r.b ^^^ r.c else (r.a &&& r.b) ||| (r.a &&& r.c) ||| (r.b &&& r.c)
  let ggj := if j < 16 then r.e ^^^ r.f ^^^ r.g else (r.e &&& r.f) ||| (~~~r.e &&& r.g)
  let ss1 := rotl (rotl r.a 12 + r.e + rotl t j) 7
  let ss2 := ss1 ^^^ rotl r.a 12
  let tt1 := ffj + r.d + ss2 + w'
  let tt2 := ggj + r.h + ss1 + w
  r'.d = r.c ∧ r'.c = rotl r.b 9 ∧ r'.b = r.a ∧ r'.a = tt1 ∧
    r'.h = r.g ∧ r'.g = rotl r.f 19 ∧ r'.f = r.e ∧ r'.e = tt2 ^^^ rotl tt2 9 ^^^ rotl tt2 17

/-- The 36 words `K[0..35]` of the key schedule, as rules R114 and R115 define them from the key bytes, with `L'` spelled
out (R112). -/
def KeySequence (T : Tables) (key : Bytes) (K : Nat → Word) : Prop :=
  (∀ k, k < 4 →
    K k = be32 (key.getD (4 * k) 0) (key.getD (4 * k + 1) 0) (key.getD (4 * k + 2) 0) (key.getD (4 * k + 3) 0) ^^^
      T.fk.toList.getD k 0) ∧
  ∀ i, i < 32 →
    let y := tau T (K (i + 1) ^^^ K (i + 2) ^^^ K (i + 3) ^^^ T.ck.toList.getD i 0)
    K (i + 4) = K i ^^^ (y ^^^ rotl y 13 ^^^ rotl y 23)

/-- The 36 words `X[0..35]` of the block transform over the round keys `rk 0, ..., rk 31`, as rule R117 defines them from the
block's bytes, with `L` spelled out (R111). -/
def BlockSequence (T : Tables) (rk : Nat → Word) (blk : Bytes) (X : Nat → Word) : Prop :=
  (∀ k, k < 4 →
    X k = be32 (blk.getD (4 * k) 0) (blk.getD (4 * k + 1) 0) (blk.getD (4 * k + 2) 0) (blk.getD (4 * k + 3) 0)) ∧
  ∀ i, i < 32 →
    let y := tau T (X (i + 1) ^^^ X (i + 2) ^^^ X (i + 3) ^^^ rk i)
    X (i + 4) = X i ^^^ (y ^^^ rotl y 2 ^^^ rotl y 10 ^^^ rotl y 18 ^^^ rotl y 24)

/-- Block `i` of a byte sequence, `q[16i .. 16i + 16)` (R45, 42_mode.md section 2). -/
def blockAt (q : Bytes) (i : Nat) : Block :=
  slice 16 (q.drop (16 * i))

/-- The headers of rule R66, row by row of its table. -/
def LegalHeader (h : Header) : Prop :=
  h.rsv = 0 ∧
    ((h.opc = 0x01 ∧ h.modifier = 0 ∧ h.alen = 0 ∧ h.len = 0) ∨
     (h.opc = 0x02 ∧ h.modifier = 0 ∧ h.alen = 0) ∨
     (h.opc = 0x03 ∧ (∀ i, 2 ≤ i → h.modifier.getLsbD i = false) ∧ h.alen = 0 ∧
        (h.modifier.getLsbD 0 = false → h.len = 0)) ∨
     (h.opc = 0x10 ∧ (∀ i, 3 ≤ i → h.modifier.getLsbD i = false) ∧ h.alen.toNat ≤ h.len.toNat ∧
        (h.modifier.getLsbD 2 = false → h.len.toNat = h.alen.toNat)) ∨
     (h.opc = 0x11 ∧ h.modifier = 0 ∧ h.alen = 0) ∨
     (h.opc = 0x12 ∧ h.modifier = 0 ∧ h.alen = 0) ∨
     (h.opc = 0x13 ∧ (∀ i, 1 ≤ i → h.modifier.getLsbD i = false) ∧ h.alen = 0))

/-- A whole packet: a header and as many payload bytes as it says, whatever its opcode is (R60, R62). -/
def IsPacket (bs : Bytes) : Prop :=
  ∃ (h : Header) (payload : Bytes), payload.length = h.len.toNat ∧ bs = h.bytes ++ payload

/-- The error a command must report in a state, in the order of rule R159; `none` where it completes (R151 to R156). -/
def errorOf (s : State) : Instr → Option Status
  | .hreset => none
  | .hwrite _ => none
  | .hdigest _ _ => none
  | .cinit key _ _ _ => if key.length = 16 then none else some .invalidKeyLength
  | .cenc p =>
    if s.cipher.cfg.keyOk = false then some .noKey
    else if s.cipher.cfg.mode = .cbc ∧ s.cipher.cfg.ivOk = false then some .invalidIv
    else if 0xFFFFFFEF < p.length then some .invalidLength
    else none
  | .cdec c =>
    if s.cipher.cfg.keyOk = false then some .noKey
    else if s.cipher.cfg.mode = .cbc ∧ s.cipher.cfg.ivOk = false then some .invalidIv
    else if c.length = 0 ∨ ¬ 16 ∣ c.length then some .invalidLength
    else none
  | .cblk b _ =>
    if s.cipher.cfg.keyOk = false then some .noKey
    else if b.length ≠ 16 then some .invalidLength
    else none

/-- The hash commands (R20). -/
def IsHashCommand : Instr → Prop
  | .hreset => True
  | .hwrite _ => True
  | .hdigest _ _ => True
  | .cinit _ _ _ _ => False
  | .cenc _ => False
  | .cdec _ => False
  | .cblk _ _ => False

/-- The commands that use a constructed cipher context: every cipher command but `CINIT` (R26, R27). -/
def UsesCipher : Instr → Prop
  | .hreset => False
  | .hwrite _ => False
  | .hdigest _ _ => False
  | .cinit _ _ _ _ => False
  | .cenc _ => True
  | .cdec _ => True
  | .cblk _ _ => True

/-- A context ready for `CENC` and `CDEC`: a key, and an IV where the mode is CBC (R172 b). -/
def CipherReady (c : CipherContext) : Prop :=
  c.cfg.keyOk = true ∧ (c.cfg.mode = .cbc → c.cfg.ivOk = true)

/-- Several commands one after another (R182). -/
def execAll : List Instr → State → Host.Outcome State Fault Refusal
  | [], s => .next s
  | i :: is, s =>
    match exec i s with
    | .next t => execAll is t
    | .fault f => .fault f
    | .refused r => .refused r

end Sys2Proof.Safety
end

