-- ==== Sys2Proof/Certificates/Slice0/Obligations.lean ====
section
/-! DEFINITION. The statements about this model for the provers, listed in OBLIGATIONS.json. -/

open Sys2Proof Sys2Proof.Machine Sys2Proof.Safety

/-- Rotation to the left moves bit `i` to bit `(i + n) mod 32`, for every amount `n` (R14, D10). -/
def Obligations.RotationMovesEveryBit : Prop :=
  ∀ (x : Word) (n i : Nat), i < 32 → (rotl x n).getLsbD ((i + n) % 32) = x.getLsbD i

/-- `Expand` gives 68 words: the 16 big-endian words of the block, then the recurrence of R84; `W'` is that of R85. -/
def Obligations.ExpansionFollowsRecurrence : Prop :=
  ∀ b : HashBlock,
    let B : Nat → Byte := fun k => b.toList.getD k 0
    let W : Nat → Word := fun j => (expand b).getD j 0
    (expand b).length = 68 ∧
    (∀ k, k < 16 → W k = be32 (B (4 * k)) (B (4 * k + 1)) (B (4 * k + 2)) (B (4 * k + 3))) ∧
    (∀ j, 16 ≤ j → j < 68 →
      let x := W (j - 16) ^^^ W (j - 9) ^^^ rotl (W (j - 3)) 15
      W j = (x ^^^ rotl x 15 ^^^ rotl x 23) ^^^ rotl (W (j - 13)) 7 ^^^ W (j - 6)) ∧
    ∀ j, j < 64 → wPrime (expand b) j = W j ^^^ W (j + 4)

/-- `Compress` is 64 rounds of R87 from the loaded registers, then the feed-forward (R86 to R88). -/
def Obligations.CompressionRunsSixtyFourRounds : Prop :=
  ∀ (v : Digest8) (b : HashBlock), ∃ R : Nat → Working,
    R 0 = { a := v[0], b := v[1], c := v[2], d := v[3], e := v[4], f := v[5], g := v[6], h := v[7] } ∧
    (∀ j, j < 64 → RoundRelation j ((expand b).getD j 0) (wPrime (expand b) j) (R j) (R (j + 1))) ∧
    (compress v b).toList =
      [v[0] ^^^ (R 64).a, v[1] ^^^ (R 64).b, v[2] ^^^ (R 64).c, v[3] ^^^ (R 64).d,
       v[4] ^^^ (R 64).e, v[5] ^^^ (R 64).f, v[6] ^^^ (R 64).g, v[7] ^^^ (R 64).h]

/-- `HRESET`: its packet, and it completes in every state with the initial constants, an empty buffer, a zero count and a
response without data (R94). -/
def Obligations.HresetRestoresFreshContext : Prop :=
  encode .hreset = [0x01, 0x00, 0, 0, 0, 0, 0, 0] ∧
  ∀ s : State, exec .hreset s =
    .next { s with
      hash := { v := Config.tables.hashIV, buf := [], nbits := 0 }
      rsp := s.rsp ++ ({ status := .ok, cfg := s.cipher.cfg, data := [] } : Response).bytes }

/-- `HWRITE`: its packet, and it completes in every state with data of any length: the whole blocks of the pending bytes followed
by the data are compressed in stream order, what is left over stays pending, and the counter grows by eight for every byte,
modulo 2^64 (R89, R95). -/
def Obligations.HwriteAbsorbsInStreamOrder : Prop :=
  ∀ data : Bytes, encode (.hwrite data) = [0x02, 0x00, 0, 0] ++ unbe32 (BitVec.ofNat 32 data.length) ++ data ∧
  ∀ s : State, exec (.hwrite data) s =
    .next { s with
      hash :=
        { v := foldCompress s.hash.v (s.hash.buf ++ data)
          buf := (s.hash.buf ++ data).drop (64 * ((s.hash.buf.length + data.length) / 64))
          nbits := s.hash.nbits + BitVec.ofNat 64 (8 * data.length) }
      rsp := s.rsp ++ ({ status := .ok, cfg := s.cipher.cfg, data := [] } : Response).bytes }

/-- `HWRITE` with no data changes nothing and answers `OK`, where the buffer level is legal (R68, R95). -/
def Obligations.HwriteOfNothingChangesNothing : Prop :=
  ∀ s : State, s.hash.buf.length ≤ 63 →
    exec (.hwrite []) s = .next (s.emit { status := .ok, cfg := s.cipher.cfg, data := [] })

/-- Absorbing twice is absorbing the concatenation, from any hash context (R98). -/
def Obligations.AbsorbingTwiceIsAbsorbingOnce : Prop :=
  ∀ (h : HashContext) (a b : Bytes), absorb (absorb h a) b = absorb h (a ++ b)

/-- The padding for every buffer length 0 to 63: its parts, its zero fill, and one block or two (R90). -/
def Obligations.FillForEveryBufferLength : Prop :=
  ∀ (buf : Bytes) (n : BitVec 64), buf.length ≤ 63 →
    let z := if buf.length ≤ 55 then 55 - buf.length else 119 - buf.length
    fill buf n = buf ++ [0x80] ++ List.replicate z 0 ++ unbe64 n ∧
    (fill buf n).length = if buf.length ≤ 55 then 64 else 128

/-- Finalisation compresses every 64-byte block of the padded tail, in order (R91). -/
def Obligations.FinalizeCompressesEveryTailBlock : Prop :=
  ∀ h : HashContext, h.buf.length ≤ 63 → finalize h = foldCompress h.v (fill h.buf h.nbits)

/-- The hexadecimal digest: two lowercase ASCII characters a byte, the high nibble first (R93). -/
def Obligations.HexEncodingOfEveryByte : Prop :=
  ∀ (d : Bytes) (i : Nat), i < d.length →
    let c : Nat → Byte := fun v => if v ≤ 9 then BitVec.ofNat 8 (0x30 + v) else BitVec.ofNat 8 (0x61 + (v - 10))
    (hexBytes d).length = 2 * d.length ∧
    (hexBytes d).getD (2 * i) 0 = c ((d.getD i 0).toNat / 16) ∧
    (hexBytes d).getD (2 * i + 1) 0 = c ((d.getD i 0).toNat % 16)

/-- `HDIGEST`: its packet, and it completes in every state: a supplied message, the empty one included, is absorbed from the
fresh context, otherwise the pending bytes are taken; the finalised registers are answered in order, big-endian, raw or in
hexadecimal; the context is fresh afterwards (R92, R96). -/
def Obligations.HdigestFinalizesAndResets : Prop :=
  ∀ (message : Option Bytes) (hex : Bool),
    encode (.hdigest message hex) =
      [0x03, (if hex then 2 else 0) + (if message.isSome then 1 else 0), 0, 0] ++
        unbe32 (BitVec.ofNat 32 (message.getD []).length) ++ message.getD [] ∧
    ∀ s : State,
      let h : HashContext :=
        match message with
        | some m => absorb { v := Config.tables.hashIV, buf := [], nbits := 0 } m
        | none => s.hash
      let f := finalize h
      let d := unbe32 f[0] ++ unbe32 f[1] ++ unbe32 f[2] ++ unbe32 f[3] ++ unbe32 f[4] ++ unbe32 f[5] ++ unbe32 f[6] ++ unbe32 f[7]
      exec (.hdigest message hex) s =
        .next { s with
          hash := { v := Config.tables.hashIV, buf := [], nbits := 0 }
          rsp := s.rsp ++
            ({ status := .ok, cfg := s.cipher.cfg, data := if hex then hexBytes d else d } : Response).bytes }

/-- `HDIGEST` with a supplied message completes in every state with the hash `H(m)` of R97, raw or hexadecimal, and leaves the
fresh context; an empty message counts as supplied (R96). -/
def Obligations.HdigestOfSuppliedMessage : Prop :=
  ∀ (m : Bytes) (hex : Bool) (s : State), exec (.hdigest (some m) hex) s =
    .next { s with
      hash := HashContext.fresh
      rsp := s.rsp ++
        ({ status := .ok, cfg := s.cipher.cfg, data := if hex then hexBytes (hashOf m) else hashOf m } : Response).bytes }

/-- `HDIGEST` without a message completes with the hash of the bytes written since the last reset of the context, and leaves
the fresh context (R96, R97). -/
def Obligations.HdigestOfWrittenBytes : Prop :=
  ∀ (m : Bytes) (hex : Bool) (s : State), Written s.hash m → exec (.hdigest none hex) s =
    .next { s with
      hash := HashContext.fresh
      rsp := s.rsp ++
        ({ status := .ok, cfg := s.cipher.cfg, data := if hex then hexBytes (hashOf m) else hashOf m } : Response).bytes }

/-- Streaming: from a fresh context, any split of a message over `HWRITE`s and then `HDIGEST` answers what `HDIGEST` of the
whole message answers (R98). -/
def Obligations.StreamingEqualsOneShot : Prop :=
  ∀ (pieces : List Bytes) (hex : Bool) (s : State), s.hash = HashContext.fresh →
    ∃ (t u w : State) (r : Response),
      execAll (pieces.map Instr.hwrite) s = .next t ∧ exec (.hdigest none hex) t = .next u ∧
      exec (.hdigest (some pieces.flatten) hex) s = .next w ∧
      u.rsp = t.rsp ++ r.bytes ∧ w.rsp = s.rsp ++ r.bytes ∧ u.hash = w.hash ∧
      r.data = if hex then hexBytes (hashOf pieces.flatten) else hashOf pieces.flatten

/-- `tau` replaces each byte in place through the substitution table, for every value of the table (R110). -/
def Obligations.TauSubstitutesEachByte : Prop :=
  ∀ (T : Tables) (x : Word), unbe32 (tau T x) = (unbe32 x).map T.sbox

/-- The key schedule is the recurrence of R114 and R115, for every key and every value of the tables. -/
def Obligations.KeyScheduleFollowsRecurrence : Prop :=
  ∀ (T : Tables) (key : Block) (K : Nat → Word), KeySequence T key.toList K →
    ∀ i, i < 32 → (keySchedule T key).toList.getD i 0 = K (i + 4)

/-- The block transform is the recurrence of R117 with the last four words reversed, for every block, every list of round keys
and every value of the tables. -/
def Obligations.BlockTransformFollowsRecurrence : Prop :=
  ∀ (T : Tables) (rk : RoundKeys) (b : Block) (X : Nat → Word),
    BlockSequence T (fun i => rk.toList.getD i 0) b.toList X →
    (blockTransform T rk b).toList = unbe32 (X 35) ++ unbe32 (X 34) ++ unbe32 (X 33) ++ unbe32 (X 32)

/-- Decryption of a block inverts its encryption and the other way round, for every block, every round keys, and every value
of the tables (R121). -/
def Obligations.BlockDecryptionInvertsEncryption : Prop :=
  ∀ (T : Tables) (rk : RoundKeys) (b : Block),
    decBlock T rk (encBlock T rk b) = b ∧ encBlock T rk (decBlock T rk b) = b

/-- `CINIT` with a 16-byte key completes: selectors, flags, round keys by the recurrence of R115, IV and chain register, in
every mode and with every IV, present or absent, of any length (R122). -/
def Obligations.CinitConstructsContext : Prop :=
  ∀ (key : Bytes) (iv : Option Bytes) (mode : Mode) (outform : OutForm) (s : State), key.length = 16 →
    ∃ (K : Nat → Word) (t : State), KeySequence Config.tables key K ∧
      exec (.cinit key iv mode outform) s = .next t ∧
      t.cipher.cfg.mode = mode ∧ t.cipher.cfg.outform = outform ∧ t.cipher.cfg.keyOk = true ∧
      (t.cipher.cfg.ivOk = true ↔ ∃ b, iv = some b ∧ b.length = 16) ∧
      (∀ i, i < 32 → t.cipher.rk.toList.getD i 0 = K (i + 4)) ∧
      (∀ b, iv = some b → b.length = 16 → t.cipher.iv.toList = b) ∧
      ((¬ ∃ b, iv = some b ∧ b.length = 16) → t.cipher.iv = Vector.replicate 16 0) ∧
      t.cipher.chain = Vector.replicate 16 0 ∧
      t.hash = s.hash ∧ t.cmd = s.cmd ∧
      t.rsp = s.rsp ++ ({ status := .ok, cfg := t.cipher.cfg, data := [] } : Response).bytes

/-- `CINIT` with a key of any other length puts the cipher context into its reset state and answers `INVALID_KEY_LENGTH` with
`CFGV` = 0x00, whatever the IV and the selectors are (R153). -/
def Obligations.CinitWithBadKeyResetsContext : Prop :=
  ∀ (key : Bytes) (iv : Option Bytes) (mode : Mode) (outform : OutForm) (s : State), key.length ≠ 16 →
    exec (.cinit key iv mode outform) s =
      .next { s with
        cipher :=
          { cfg := { mode := .cbc, outform := .base64, keyOk := false, ivOk := false }, rk := Vector.replicate 32 0
            iv := Vector.replicate 16 0, chain := Vector.replicate 16 0 }
        rsp := s.rsp ++ [0x02, 0x00, 0, 0, 0, 0, 0, 0] }

/-- `CBLK` with a key and a 16-byte block completes with one block transform by the recurrence of R117, over the round keys in
encryption or in decryption order, in every mode and without regard to the IV; no other state changes (R116, R118, R123). -/
def Obligations.CblkRunsOneBlockTransform : Prop :=
  ∀ (block : Bytes) (dec : Bool) (s : State), s.cipher.cfg.keyOk = true → block.length = 16 →
    ∃ X : Nat → Word,
      BlockSequence Config.tables (fun i => s.cipher.rk.toList.getD (if dec then 31 - i else i) 0) block X ∧
      exec (.cblk block dec) s =
        .next { s with
          rsp := s.rsp ++
            ({ status := .ok, cfg := s.cipher.cfg
               data := unbe32 (X 35) ++ unbe32 (X 34) ++ unbe32 (X 33) ++ unbe32 (X 32) } : Response).bytes }

/-- `CBLK` in one direction on the result of `CBLK` in the other gives the block back (R123, R121). -/
def Obligations.CblkBackAndForth : Prop :=
  ∀ (block : Bytes) (dec : Bool) (s : State), s.cipher.cfg.keyOk = true → block.length = 16 →
    ∃ (c : Bytes) (t u : State), exec (.cblk block dec) s = .next t ∧
      t.rsp = s.rsp ++ ({ status := .ok, cfg := s.cipher.cfg, data := c } : Response).bytes ∧ c.length = 16 ∧
      exec (.cblk c (!dec)) t = .next u ∧
      u.rsp = t.rsp ++ ({ status := .ok, cfg := s.cipher.cfg, data := block } : Response).bytes

/-- `CENC` in ECB mode completes: the padded plaintext block by block; no state but the response stream changes (R130, R135,
R139). -/
def Obligations.CencInEcbEncryptsEachBlock : Prop :=
  ∀ (p : Bytes) (s : State), s.cipher.cfg.keyOk = true → s.cipher.cfg.mode = .ecb → p.length ≤ 0xFFFFFFEF →
    let N := 16 - p.length % 16
    let q := p ++ List.replicate N (BitVec.ofNat 8 N)
    ∃ c : Bytes, c.length = 16 * (p.length / 16 + 1) ∧
      (∀ i, i ≤ p.length / 16 → blockAt c i = encBlock Config.tables s.cipher.rk (blockAt q i)) ∧
      exec (.cenc p) s =
        .next { s with rsp := s.rsp ++ ({ status := .ok, cfg := s.cipher.cfg, data := c } : Response).bytes }

/-- `CENC` in CBC mode with an IV completes: each block of the padded plaintext is chained with the ciphertext block before it,
the first with the IV, and `CHAIN` keeps the last ciphertext block (R130, R137, R139). -/
def Obligations.CencInCbcChainsCiphertext : Prop :=
  ∀ (p : Bytes) (s : State), s.cipher.cfg.keyOk = true → s.cipher.cfg.mode = .cbc → s.cipher.cfg.ivOk = true →
    p.length ≤ 0xFFFFFFEF →
    let N := 16 - p.length % 16
    let q := p ++ List.replicate N (BitVec.ofNat 8 N)
    ∃ c : Bytes, c.length = 16 * (p.length / 16 + 1) ∧
      blockAt c 0 = encBlock Config.tables s.cipher.rk (xorBlock (blockAt q 0) s.cipher.iv) ∧
      (∀ i, i < p.length / 16 →
        blockAt c (i + 1) = encBlock Config.tables s.cipher.rk (xorBlock (blockAt q (i + 1)) (blockAt c i))) ∧
      exec (.cenc p) s =
        .next { s with
          cipher := { s.cipher with chain := blockAt c (p.length / 16) }
          rsp := s.rsp ++ ({ status := .ok, cfg := s.cipher.cfg, data := c } : Response).bytes }

/-- `CDEC` in ECB mode completes on every non-empty whole number of blocks: each block decrypted, then as many bytes removed as
the last byte says, all of them where it says more than there are (R131 to R133, R136, R140; for R133 log entry 6). -/
def Obligations.CdecInEcbDecryptsEachBlock : Prop :=
  ∀ (c : Bytes) (s : State), s.cipher.cfg.keyOk = true → s.cipher.cfg.mode = .ecb → c ≠ [] → 16 ∣ c.length →
    ∃ q : Bytes, q.length = c.length ∧
      (∀ i, i < c.length / 16 → blockAt q i = decBlock Config.tables s.cipher.rk (blockAt c i)) ∧
      exec (.cdec c) s =
        .next { s with
          rsp := s.rsp ++
            ({ status := .ok, cfg := s.cipher.cfg
               data := q.take (q.length - (q.getD (q.length - 1) 0).toNat) } : Response).bytes }

/-- `CDEC` in CBC mode with an IV completes on every non-empty whole number of blocks: each decrypted block is combined with the
ciphertext block before it, the first with the IV, `CHAIN` keeps the last ciphertext block, and the padding is removed as the
last byte says (R131 to R133, R138, R140; for R133 log entry 6). -/
def Obligations.CdecInCbcChainsCiphertext : Prop :=
  ∀ (c : Bytes) (s : State), s.cipher.cfg.keyOk = true → s.cipher.cfg.mode = .cbc → s.cipher.cfg.ivOk = true →
    c ≠ [] → 16 ∣ c.length →
    ∃ q : Bytes, q.length = c.length ∧
      blockAt q 0 = xorBlock (decBlock Config.tables s.cipher.rk (blockAt c 0)) s.cipher.iv ∧
      (∀ i, i + 1 < c.length / 16 →
        blockAt q (i + 1) = xorBlock (decBlock Config.tables s.cipher.rk (blockAt c (i + 1))) (blockAt c i)) ∧
      exec (.cdec c) s =
        .next { s with
          cipher := { s.cipher with chain := blockAt c (c.length / 16 - 1) }
          rsp := s.rsp ++
            ({ status := .ok, cfg := s.cipher.cfg
               data := q.take (q.length - (q.getD (q.length - 1) 0).toNat) } : Response).bytes }

/-- Padding always adds 1 to 16 bytes up to a multiple of 16, and de-padding removes exactly them, for every length (R130,
R143). -/
def Obligations.DepadInvertsPad : Prop :=
  ∀ p : Bytes, depad (pad p) = p ∧ (pad p).length = 16 * (p.length / 16 + 1)

/-- De-padding looks at the last byte alone: it removes as many bytes as that byte says, nothing for 0, and everything where
the byte says at least the length (R131, R132; that an excess count leaves the empty sequence is R133, log entry 6). -/
def Obligations.DepadObeysLastByteOnly : Prop :=
  ∀ (q : Bytes) (last : Byte),
    (last = 0 → depad (q ++ [last]) = q ++ [last]) ∧
    (last.toNat ≤ q.length + 1 → ∃ removed : Bytes, removed.length = last.toNat ∧
      q ++ [last] = depad (q ++ [last]) ++ removed) ∧
    (q.length + 1 ≤ last.toNat → depad (q ++ [last]) = [])

/-- What `CENC` returns, `CDEC` takes back to the plaintext, in ECB and in CBC, for every plaintext `CENC` accepts (R144). -/
def Obligations.CdecInvertsCenc : Prop :=
  ∀ (p : Bytes) (s : State), CipherReady s.cipher → p.length ≤ 0xFFFFFFEF →
    ∃ (c : Bytes) (t u : State), exec (.cenc p) s = .next t ∧
      t.rsp = s.rsp ++ ({ status := .ok, cfg := s.cipher.cfg, data := c } : Response).bytes ∧
      exec (.cdec c) t = .next u ∧
      u.rsp = t.rsp ++ ({ status := .ok, cfg := s.cipher.cfg, data := p } : Response).bytes

/-- A change confined to ciphertext block `i` reaches, in CBC decryption, only block `i`, through the decryption of the changed
block, and block `i + 1`, where exactly the changed bits flip (R145). -/
def Obligations.CbcErrorReachesTwoBlocks : Prop :=
  ∀ (dec : Block → Block) (chain : Block) (qs : List Block) (i : Nat) (d : Block), i < qs.length →
    let z : Block := Vector.replicate 16 0
    let p := (cbcDecrypt dec chain qs).1
    let p' := (cbcDecrypt dec chain (qs.set i d)).1
    p'.length = p.length ∧
    (∀ k, k ≠ i → k ≠ i + 1 → p'.getD k z = p.getD k z) ∧
    (∃ before : Block, p.getD i z = xorBlock (dec (qs.getD i z)) before ∧ p'.getD i z = xorBlock (dec d) before) ∧
    (i + 1 < qs.length → p'.getD (i + 1) z = xorBlock (p.getD (i + 1) z) (xorBlock (qs.getD i z) d))

/-- Every command that meets an error condition answers the first that applies, in the order `INVALID_KEY_LENGTH` or `NO_KEY`,
`INVALID_IV`, `INVALID_LENGTH` (R159, the spec's decision D7; the illegal command, first in that order, is
`IllegalCommandChangesNothing`), with no data and all state as it was but for the cipher context after `INVALID_KEY_LENGTH`, which
takes its reset value (R152, R153); every other command answers `OK`. The conditions are those of R153 to R156. -/
def Obligations.ErrorsFollowPriority : Prop :=
  ∀ (i : Instr) (s : State), ∃ (t : State) (r : Response), exec i s = .next t ∧ t.rsp = s.rsp ++ r.bytes ∧
    r.status = (errorOf s i).getD .ok ∧ r.cfg = t.cipher.cfg ∧
    (errorOf s i ≠ none →
      r.data = [] ∧ t.hash = s.hash ∧ t.cmd = s.cmd ∧
      t.cipher = if r.status = .invalidKeyLength then CipherContext.reset else s.cipher)

/-- Every command, in every state, completes with exactly one response packet: the code of its status as R73 numbers it, the first
error that applies or `OK`; `CFG` as it stands after the command; two zero bytes, the length, and the data, none unless the
status is `OK`. The command bytes that wait are not touched (R72, R73, R74, R181; the order of the errors is R159, the spec's
decision D7). -/
def Obligations.OneResponsePerCommand : Prop :=
  let code : Status → Byte := fun st =>
    match st with
    | .ok => 0x00
    | .illegalCommand => 0x01
    | .invalidKeyLength => 0x02
    | .invalidIv => 0x03
    | .noKey => 0x04
    | .invalidLength => 0x05
  ∀ (i : Instr) (s : State), ∃ (t : State) (data : Bytes), exec i s = .next t ∧ t.cmd = s.cmd ∧
    t.rsp = s.rsp ++ [code ((errorOf s i).getD .ok), t.cipher.cfg.byte, 0, 0] ++ unbe32 (BitVec.ofNat 32 data.length) ++ data ∧
    (errorOf s i ≠ none → data = [])

/-- When the bytes at the front of the stream decode to a command, a step is that command's meaning, its packet consumed. -/
def Obligations.StepRunsDecodedCommand : Prop :=
  ∀ (s : State) (i : Instr) (rest : Bytes), decode s.cmd = .command i rest → step s = exec i { s with cmd := rest }

/-- When the stream begins with the packet of a well-formed command, a step is that command's meaning and the stream goes on
after the packet (R60, R62). -/
def Obligations.StepRunsEncodedCommand : Prop :=
  ∀ (s : State) (i : Instr) (rest : Bytes), i.WellFormed → s.cmd = encode i ++ rest →
    step s = exec i { s with cmd := rest }

/-- Any sequence of whole packets, legal or not, is consumed packet by packet, one step each: there is one response per packet,
response `k` comes out in step `k`, after those before it, and the bytes after the last packet stay (R53, R62, R173, R182). -/
def Obligations.EveryPacketIsAnsweredInOrder : Prop :=
  ∀ (ps : List Bytes) (tail : Bytes) (s : State), (∀ p ∈ ps, IsPacket p) → s.cmd = ps.flatten ++ tail →
    ∃ rs : List Response, rs.length = ps.length ∧
      ∀ k, k ≤ ps.length → ∃ t : State, Sys2Proof.core.run k s = .next t ∧ t.cmd = (ps.drop k).flatten ++ tail ∧
        t.rsp = s.rsp ++ (rs.take k).flatMap Response.bytes

/-- Where no whole packet stands at the front of the stream there is no step; the model says so by a fault (R69, R170; the fault
is the model's form of it, log entry 3). -/
def Obligations.NoStepWithoutWholePacket : Prop :=
  ∀ s : State, (¬ ∃ p rest, IsPacket p ∧ s.cmd = p ++ rest) →
    step s = .fault (if s.cmd = [] then .noCommand else .incompletePacket)

/-- The invariant holds after reset. -/
def Obligations.ResetMeetsInvariant : Prop :=
  Inv State.reset

/-- Every step keeps the invariant: the hash context is that of some bytes written, the cipher context is the reset one or a
constructed one, and the response stream is a sequence of whole packets (R25, R30, R72). -/
def Obligations.StepKeepsInvariant : Prop :=
  ∀ s t : State, Inv s → step s = .next t → Inv t

/-- What the invariant says of the buffer and the counter: at most 63 bytes, as many as the counter says, and whole bytes
(R25 a to c). -/
def Obligations.InvariantBoundsBuffer : Prop :=
  ∀ s : State, Inv s →
    s.hash.buf.length ≤ 63 ∧ s.hash.buf.length = s.hash.nbits.toNat / 8 % 64 ∧ s.hash.nbits.toNat % 8 = 0

/-- The bits of `CFG`: `MODE`, `OUTFORM`, `KEYOK`, `IVOK`, and the reserved bits, which read as 0 (R26). -/
def Obligations.CfgByteLayout : Prop :=
  ∀ c : Cfg, c.byte.getLsbD 0 = (c.mode == .ecb) ∧ c.byte.getLsbD 1 = (c.outform == .text) ∧
    c.byte.getLsbD 2 = c.keyOk ∧ c.byte.getLsbD 3 = c.ivOk ∧ ∀ i, 4 ≤ i → c.byte.getLsbD i = false

/-- The state after reset, value by value: the initial constants, an empty buffer, a zero count, `CFG` = 0x00, and zero round
keys, IV and chain (R36). -/
def Obligations.ResetValues : Prop :=
  State.reset.hash.v = Config.tables.hashIV ∧ State.reset.hash.buf = [] ∧ State.reset.hash.nbits = 0 ∧
  State.reset.cipher.cfg.byte = 0x00 ∧ State.reset.cipher.cfg.mode = .cbc ∧ State.reset.cipher.cfg.outform = .base64 ∧
  State.reset.cipher.cfg.keyOk = false ∧ State.reset.cipher.cfg.ivOk = false ∧
  (∀ i, i < 32 → State.reset.cipher.rk.toList.getD i 1 = 0) ∧
  ∀ i, i < 16 → State.reset.cipher.iv.toList.getD i 1 = 0 ∧ State.reset.cipher.chain.toList.getD i 1 = 0

/-- After a reset event in any state, whatever bytes waited, the first byte presented is byte 0 of a header and the command runs
from the reset contexts (R170; that the responses already produced stay is log entry 2). -/
def Obligations.ResetEventStartsAfresh : Prop :=
  ∀ (s : State) (i : Instr), i.WellFormed →
    step (s.resetEvent.present (encode i)) =
      exec i { hash := HashContext.fresh, cipher := CipherContext.reset, cmd := [], rsp := s.rsp }

/-- Frame of the hash commands: the cipher context and the waiting bytes are unchanged, and the response stream only grows by one
packet (R20, R35, R52). -/
def Obligations.HashCommandsKeepCipherContext : Prop :=
  ∀ (i : Instr) (s t : State), IsHashCommand i → exec i s = .next t →
    t.cipher = s.cipher ∧ t.cmd = s.cmd ∧ ∃ r : Response, t.rsp = s.rsp ++ r.bytes

/-- Frame of the cipher commands: the hash context and the waiting bytes are unchanged, and the response stream only grows by one
packet (R20, R35, R52). -/
def Obligations.CipherCommandsKeepHashContext : Prop :=
  ∀ (i : Instr) (s t : State), ¬ IsHashCommand i → exec i s = .next t →
    t.hash = s.hash ∧ t.cmd = s.cmd ∧ ∃ r : Response, t.rsp = s.rsp ++ r.bytes

/-- Frame of `CENC`, `CDEC` and `CBLK`: `CFG`, `RK` and `IV` are unchanged, and `CHAIN` too unless a `CENC` or `CDEC` completes in
CBC mode (R26, R27, R29, R35). -/
def Obligations.OnlyCbcWritesChain : Prop :=
  ∀ (i : Instr) (s t : State), UsesCipher i → exec i s = .next t →
    t.cipher.cfg = s.cipher.cfg ∧ t.cipher.rk = s.cipher.rk ∧ t.cipher.iv = s.cipher.iv ∧
    ((s.cipher.cfg.mode = .ecb ∨ errorOf s i ≠ none ∨ ∃ b d, i = .cblk b d) → t.cipher.chain = s.cipher.chain)

/-- `CFG`, `RK` and `IV` are written by `CINIT` only (R26 to R28). -/
def Obligations.OnlyCinitWritesConfiguration : Prop :=
  ∀ (i : Instr) (s t : State), (∀ k v m o, i ≠ .cinit k v m o) → exec i s = .next t →
    t.cipher.cfg = s.cipher.cfg ∧ t.cipher.rk = s.cipher.rk ∧ t.cipher.iv = s.cipher.iv

/-- A hash command reads nothing of the cipher context but the copy of `CFG` in its response (R20). -/
def Obligations.HashCommandsIgnoreCipherContext : Prop :=
  ∀ (i : Instr) (s t : State) (c : CipherContext), IsHashCommand i → c.cfg = s.cipher.cfg → exec i s = .next t →
    exec i { s with cipher := c } = .next { t with cipher := c }

/-- A cipher command reads nothing of the hash context (R20). -/
def Obligations.CipherCommandsIgnoreHashContext : Prop :=
  ∀ (i : Instr) (s t : State) (h : HashContext), ¬ IsHashCommand i → exec i s = .next t →
    exec i { s with hash := h } = .next { t with hash := h }

/-- No command reads `CHAIN`: whatever it holds, the response and everything else after the command are the same (R29). -/
def Obligations.ChainIsNeverObserved : Prop :=
  ∀ (i : Instr) (s t : State) (b : Block), exec i s = .next t →
    ∃ u : State, exec i (s.setChain b) = .next u ∧ u.rsp = t.rsp ∧ u.hash = t.hash ∧ u.cmd = t.cmd ∧
      u.cipher.cfg = t.cipher.cfg ∧ u.cipher.rk = t.cipher.rk ∧ u.cipher.iv = t.cipher.iv

/-- In ECB mode no command reads `IV` (R28, R135, R136). -/
def Obligations.IvIsNotReadInEcb : Prop :=
  ∀ (i : Instr) (s t : State) (b : Block), UsesCipher i → s.cipher.cfg.mode = .ecb → exec i s = .next t →
    exec i { s with cipher := { s.cipher with iv := b } } = .next { t with cipher := { t.cipher with iv := b } }

/-- While `KEYOK` = 0 no command reads `RK`, `IV` or `CHAIN`: its response and the other state do not depend on them (R27, R36). -/
def Obligations.KeysAreNotReadWithoutKey : Prop :=
  ∀ (i : Instr) (s t : State) (rk : RoundKeys) (iv chain : Block), s.cipher.cfg.keyOk = false → exec i s = .next t →
    ∃ u : State, exec i { s with cipher := { s.cipher with rk := rk, iv := iv, chain := chain } } = .next u ∧
      u.rsp = t.rsp ∧ u.hash = t.hash ∧ u.cmd = t.cmd ∧ u.cipher.cfg = t.cipher.cfg

/-- `OUTFORM` has no effect on any byte the engine produces but the copy of `CFG` in the response: the same status, the same data
and the same state otherwise (R142). -/
def Obligations.OutputFormChangesNoData : Prop :=
  ∀ (i : Instr) (s : State) (o : OutForm), UsesCipher i →
    ∃ (st : Status) (data : Bytes) (b : Block),
      exec i s = .next ((s.setChain b).emit { status := st, cfg := s.cipher.cfg, data := data }) ∧
      exec i { s with cipher := { s.cipher with cfg := { s.cipher.cfg with outform := o } } } =
        .next (({ s with cipher := { s.cipher with cfg := { s.cipher.cfg with outform := o } } }.setChain b).emit
          { status := st, cfg := { s.cipher.cfg with outform := o }, data := data })

/-- A host reads back from the response stream exactly the packet produced, and the bytes after it (R72, R73). -/
def Obligations.ResponseReadsBack : Prop :=
  ∀ (r : Response) (rest : Bytes), r.data.length < 2 ^ 32 → readResponse (r.bytes ++ rest) = some (r, rest)

/-- Decoding inverts encoding, for every well-formed command with every operand, whatever follows the packet (R71). -/
def Obligations.DecodeInvertsEncode : Prop :=
  ∀ (i : Instr) (rest : Bytes), i.WellFormed → decode (encode i ++ rest) = .command i rest

/-- Encoding inverts decoding: a packet that decodes to a command is that command's only encoding (R71). -/
def Obligations.EncodeInvertsDecode : Prop :=
  ∀ (bs rest : Bytes) (i : Instr), decode bs = .command i rest → i.WellFormed ∧ bs = encode i ++ rest

/-- A whole packet decodes to a command exactly when its header is legal by the table of R66, and is an illegal command
otherwise; either way the decoder goes on after its payload (R62, R66, R67). -/
def Obligations.LegalHeadersAreExactlyTheTable : Prop :=
  ∀ (h : Header) (payload rest : Bytes), payload.length = h.len.toNat →
    (LegalHeader h → ∃ i, decode (h.bytes ++ payload ++ rest) = .command i rest) ∧
    (¬ LegalHeader h → ∃ why, decode (h.bytes ++ payload ++ rest) = .illegal why rest)

/-- A packet with an illegal header is consumed whole, changes no state, and is answered with `ILLEGAL_COMMAND` and no data
(R67, R151). -/
def Obligations.IllegalCommandChangesNothing : Prop :=
  ∀ (s : State) (h : Header) (payload rest : Bytes), payload.length = h.len.toNat → ¬ LegalHeader h →
    s.cmd = h.bytes ++ payload ++ rest →
    step s = .next { s with cmd := rest, rsp := s.rsp ++ [0x01, s.cipher.cfg.byte, 0, 0, 0, 0, 0, 0] }

/-- The decoder on ten words written out from the opcode table: nine that decode to commands, at least one for every row, with
the modifier bits set where the row has them, and one with a reserved opcode, which decodes to none. How a word's bits make a
packet, and that payload bytes above the 64 bits of the header are zero, is the model's choice, log entry 9. -/
def Obligations.TableWordsDecode : Prop :=
  decodeTableWord 64 0x0100000000000000 = some .hreset ∧
  decodeTableWord 64 0x0200000000000002 = some (.hwrite [0, 0]) ∧
  decodeTableWord 64 0x0303000000000001 = some (.hdigest (some [0]) true) ∧
  decodeTableWord 64 0x0302000000000000 = some (.hdigest none true) ∧
  decodeTableWord 64 0x1003010000000001 = some (.cinit [0] none .ecb .text) ∧
  decodeTableWord 64 0x1004010000000003 = some (.cinit [0] (some [0, 0]) .cbc .base64) ∧
  decodeTableWord 64 0x1100000000000001 = some (.cenc [0]) ∧
  decodeTableWord 64 0x1200000000000001 = some (.cdec [0]) ∧
  decodeTableWord 64 0x1301000000000001 = some (.cblk [0] true) ∧
  decodeTableWord 64 0x1400000000000000 = none

/-- The assembler's defaults: `mode=` omitted is `cbc`, `out=` omitted is `base64`, `iv=` omitted is no IV, each whatever the
others are, and the qualifier of `HDIGEST` has no default and must be written (R77). -/
def Obligations.AssemblerDefaults : Prop :=
  (∀ key b : Bytes,
    let k : List Token := [.word "key".toList, .equals, .bytes key]
    let withIv : List Token := [.comma, .word "iv".toList, .equals, .bytes b]
    let ecb : List Token := [.comma, .word "mode".toList, .equals, .word "ecb".toList]
    let text : List Token := [.comma, .word "out".toList, .equals, .word "text".toList]
    asmCommand "CINIT".toList k = some (.cinit key none .cbc .base64) ∧
    asmCommand "CINIT".toList (k ++ withIv) = some (.cinit key (some b) .cbc .base64) ∧
    asmCommand "CINIT".toList (k ++ ecb) = some (.cinit key none .ecb .base64) ∧
    asmCommand "CINIT".toList (k ++ text) = some (.cinit key none .cbc .text) ∧
    asmCommand "CINIT".toList (k ++ withIv ++ ecb) = some (.cinit key (some b) .ecb .base64) ∧
    asmCommand "CINIT".toList (k ++ withIv ++ text) = some (.cinit key (some b) .cbc .text) ∧
    asmCommand "CINIT".toList (k ++ ecb ++ text) = some (.cinit key none .ecb .text)) ∧
  (∀ m : Bytes, asmCommand "HDIGEST".toList [.bytes m] = none) ∧ asmCommand "HDIGEST".toList [] = none
end

