-- ==== Sys2Proof/Laws/Operands.lean ====
section
/-! SUPPORT. Packing and unpacking are inverse; the lengths and the elements of what the operand forms give. -/

namespace Sys2Proof.Machine

/-- `be32` of the four bytes of a word is the word. -/
theorem be32_extract (w : Word) :
    be32 (w.extractLsb' 24 8) (w.extractLsb' 16 8) (w.extractLsb' 8 8) (w.extractLsb' 0 8) = w := by
  apply BitVec.eq_of_getLsbD_eq
  intro i hi
  have hle : 8 ≤ i → ¬ i - 8 < 8 → ¬ i - 8 - 8 < 8 → i - 8 - 8 - 8 < 8 := by omega
  simp only [be32, BitVec.getLsbD_append, BitVec.getLsbD_extractLsb']
  split
  · simp [*]
  · split
    · simp only [*, decide_true, Bool.true_and]; congr 1; omega
    · split
      · simp only [*, decide_true, Bool.true_and]; congr 1; omega
      · have := hle (by omega) ‹_› ‹_›
        simp only [this, decide_true, Bool.true_and]; congr 1; omega

/-- The four bytes of a packed word are the bytes it was packed from. -/
@[simp] theorem unbe32_be32 (b0 b1 b2 b3 : Byte) : unbe32 (be32 b0 b1 b2 b3) = [b0, b1, b2, b3] := by
  simp only [unbe32, be32, List.cons.injEq, and_true]
  refine ⟨?_, ?_, ?_, ?_⟩ <;>
  · apply BitVec.eq_of_getLsbD_eq
    intro i hi
    simp only [BitVec.getLsbD_append, BitVec.getLsbD_extractLsb', hi, decide_true, Bool.true_and]
    repeat' split
    all_goals first | omega | (congr 1; omega)

@[simp] theorem unbe32_length (w : Word) : (unbe32 w).length = 4 := rfl

@[simp] theorem unbe64_length (n : BitVec 64) : (unbe64 n).length = 8 := rfl

@[simp] theorem bytesOf_nil : bytesOf [] = [] := rfl

@[simp] theorem bytesOf_cons (w : Word) (ws : List Word) : bytesOf (w :: ws) = unbe32 w ++ bytesOf ws := rfl

theorem bytesOf_length (ws : List Word) : (bytesOf ws).length = 4 * ws.length := by
  induction ws with
  | nil => rfl
  | cons w ws ih => simp [ih]; omega

/-- A word of `words s` is packed from the four bytes at its place. -/
theorem words_getD (s : Bytes) (k : Nat) (h : 4 * k + 3 < s.length) :
    (words s).getD k 0 = be32 (s.getD (4 * k) 0) (s.getD (4 * k + 1) 0) (s.getD (4 * k + 2) 0) (s.getD (4 * k + 3) 0) := by
  induction s using words.induct generalizing k with
  | case1 b0 b1 b2 b3 rest ih =>
    cases k with
    | zero => simp [words]
    | succ k =>
      have h' : 4 * k + 3 < rest.length := by simp at h; omega
      have e : 4 * (k + 1) = 4 * k + 4 := by ring
      simp only [words, List.getD_cons_succ, ih k h', e, Nat.add_assoc, Nat.reduceAdd]
  | case2 s hs =>
    exfalso
    match s, hs, h with
    | b0 :: b1 :: b2 :: b3 :: rest, hs, _ => exact hs b0 b1 b2 b3 rest rfl
    | [], _, h => simp at h
    | [_], _, h => simp at h
    | [_, _], _, h => simp at h
    | [_, _, _], _, h => simp at h

theorem words_length (s : Bytes) : (words s).length = s.length / 4 := by
  induction s using words.induct with
  | case1 b0 b1 b2 b3 rest ih => simp [words, ih]; omega
  | case2 s hs =>
    match s, hs with
    | b0 :: b1 :: b2 :: b3 :: rest, hs => exact absurd rfl (hs b0 b1 b2 b3 rest)
    | [], _ => rfl
    | [_], _ => simp [words]
    | [_, _], _ => simp [words]
    | [_, _, _], _ => simp [words]

@[simp] theorem slice_toList (n : Nat) (s : Bytes) (h : n ≤ s.length) : (slice n s).toList = s.take n := by
  apply List.ext_getElem
  · simp [slice, h]
  · intro i h1 h2
    have hi : i < s.length := by simp [slice] at h1; omega
    simp [slice, List.getD_eq_getElem?_getD, hi]

/-- A block is the slice of its own bytes, whatever follows them. -/
theorem slice_append_toList (n : Nat) (b : Vector Byte n) (rest : Bytes) : slice n (b.toList ++ rest) = b := by
  apply Vector.toList_inj.mp
  rw [slice_toList _ _ (by simp)]
  simp

@[simp] theorem takeBlocks_length (n : Nat) (s : Bytes) : (takeBlocks n s).length = n := by
  induction n generalizing s with
  | zero => rfl
  | succ n ih => simp [takeBlocks, ih]

/-- Block `i` of a byte sequence is its bytes `16 i` to `16 i + 15`. -/
theorem takeBlocks_getElem? (n : Nat) (s : Bytes) (i : Nat) (h : i < n) :
    (takeBlocks n s)[i]? = some (slice 16 (s.drop (16 * i))) := by
  induction n generalizing s i with
  | zero => omega
  | succ n ih =>
    cases i with
    | zero => simp [takeBlocks]
    | succ i =>
      rw [takeBlocks, List.getElem?_cons_succ, ih _ _ (by omega), List.drop_drop]
      congr 3
      omega

@[simp] theorem blocksBytes_nil : blocksBytes [] = [] := rfl

@[simp] theorem blocksBytes_cons (b : Block) (bs : List Block) : blocksBytes (b :: bs) = b.toList ++ blocksBytes bs := rfl

@[simp] theorem blocksBytes_length (bs : List Block) : (blocksBytes bs).length = 16 * bs.length := by
  induction bs with
  | nil => rfl
  | cons b bs ih => simp [ih]; omega

/-- The bytes of the blocks of a whole number of blocks are the bytes themselves. -/
theorem blocksBytes_takeBlocks (n : Nat) (s : Bytes) (h : s.length = 16 * n) : blocksBytes (takeBlocks n s) = s := by
  induction n generalizing s with
  | zero => simpa [takeBlocks] using (List.length_eq_zero_iff.mp (by omega)).symm
  | succ n ih =>
    rw [takeBlocks, blocksBytes_cons, ih _ (by simp; omega), slice_toList _ _ (by omega), List.take_append_drop]

/-- The blocks of the bytes of a list of blocks are those blocks. -/
theorem takeBlocks_blocksBytes (bs : List Block) : takeBlocks bs.length (blocksBytes bs) = bs := by
  induction bs with
  | nil => rfl
  | cons b bs ih =>
    rw [List.length_cons, takeBlocks, blocksBytes_cons, slice_append_toList, List.drop_left' (by simp), ih]

/-- Adding the same block twice changes nothing. -/
@[simp] theorem xorBlock_cancel (a b : Block) : xorBlock (xorBlock a b) b = a := by
  ext i hi
  simp [xorBlock]

end Sys2Proof.Machine
end

