-- ==== Sys2Proof/Laws/Cipher.lean ====
section
/-! SUPPORT. Laws of the cipher functions, for every value of the tables: lengths, the key recurrence, one round and its
inverse, and the reversed round keys. -/

namespace Sys2Proof.Machine

variable (T : Tables)

@[simp] theorem keyWords_length (cks : List Word) (q : Quad) : (keyWords T cks q).length = cks.length := by
  induction cks generalizing q with
  | nil => rfl
  | cons ck cks ih => simp [keyWords, ih]

/-- The words of the key recurrence, read off any sequence that satisfies it. -/
theorem keyWords_getD (cks : List Word) (q : Quad) (K : Nat → Word)
    (h0 : q = { x0 := K 0, x1 := K 1, x2 := K 2, x3 := K 3 })
    (hs : ∀ i, i < cks.length → K (i + 4) = K i ^^^ mixKey T (K (i + 1) ^^^ K (i + 2) ^^^ K (i + 3) ^^^ cks.getD i 0))
    (i : Nat) (hi : i < cks.length) : (keyWords T cks q).getD i 0 = K (i + 4) := by
  induction cks generalizing q K i with
  | nil => simp at hi
  | cons ck cks ih =>
    have e : keyRound T q ck = { x0 := K 1, x1 := K 2, x2 := K 3, x3 := K 4 } := by
      have := hs 0 (by simp)
      simp only [Nat.zero_add, List.getD_cons_zero] at this
      rw [h0, this]; rfl
    cases i with
    | zero => simp [keyWords, e]
    | succ i =>
      have := ih (keyRound T q ck) (fun n => K (n + 1)) e
        (fun i h => by simpa [Nat.add_right_comm] using hs (i + 1) (by simpa using h)) i (by simpa using hi)
      simpa [keyWords, Nat.add_right_comm] using this

/-- Round key `i` is the word the key recurrence produces at place `i`. -/
theorem keySchedule_getD (key : Block) (i : Nat) (h : i < 32) :
    (keySchedule T key).toList.getD i 0 = (keyWords T T.ck.toList (keyQuad T key)).getD i 0 := by
  have hl : i < (keySchedule T key).toList.length := by simpa using h
  rw [List.getD_eq_getElem?_getD, List.getElem?_eq_getElem hl]
  simp [keySchedule, List.getD_eq_getElem?_getD, h]

/-- The working words of the block transform after the rounds over `ks`, read off any sequence that satisfies its
recurrence. -/
theorem foldl_blockRound (ks : List Word) (q : Quad) (X : Nat → Word)
    (h0 : q = { x0 := X 0, x1 := X 1, x2 := X 2, x3 := X 3 })
    (hs : ∀ i, i < ks.length → X (i + 4) = X i ^^^ mixBlock T (X (i + 1) ^^^ X (i + 2) ^^^ X (i + 3) ^^^ ks.getD i 0)) :
    ks.foldl (blockRound T) q =
      { x0 := X ks.length, x1 := X (ks.length + 1), x2 := X (ks.length + 2), x3 := X (ks.length + 3) } := by
  induction ks generalizing q X with
  | nil => simpa using h0
  | cons k ks ih =>
    have e : blockRound T q k = { x0 := X 1, x1 := X 2, x2 := X 3, x3 := X 4 } := by
      have := hs 0 (by simp)
      simp only [Nat.zero_add, List.getD_cons_zero] at this
      rw [h0, this]; rfl
    have := ih (blockRound T q k) (fun n => X (n + 1)) e
      (fun i h => by simpa [Nat.add_right_comm] using hs (i + 1) (by simpa using h))
    simpa [Nat.add_right_comm] using this

/-- The four words of a state in reversed order. -/
def Quad.reverse (q : Quad) : Quad := { x0 := q.x3, x1 := q.x2, x2 := q.x1, x3 := q.x0 }

@[simp] theorem Quad.reverse_reverse (q : Quad) : q.reverse.reverse = q := rfl

/-- One round undone: the same round with the same key on the reversed state after it gives the reversed state before it. -/
theorem blockRound_reverse (q : Quad) (k : Word) :
    blockRound T (blockRound T q k).reverse k = q.reverse := by
  have e : q.x3 ^^^ q.x2 ^^^ q.x1 ^^^ k = q.x1 ^^^ q.x2 ^^^ q.x3 ^^^ k := by ac_rfl
  simp only [blockRound, Quad.reverse, e, Quad.mk.injEq, true_and]
  rw [BitVec.xor_assoc, BitVec.xor_self, BitVec.xor_zero]

/-- The output block read back is the reversed state. -/
theorem loadQuad_storeReversed (q : Quad) : loadQuad (storeReversed q) = q.reverse := by
  have hw : ∀ w : Word, be32 (w.extractLsb' 24 8) (w.extractLsb' 16 8) (w.extractLsb' 8 8) (w.extractLsb' 0 8) = w := be32_extract
  simp only [loadQuad, storeReversed, slice, bytesOf, List.flatMap_cons, List.flatMap_nil, unbe32, Vector.getElem_ofFn]
  simp [hw, Quad.reverse]

/-- A block is the output block of its own words reversed. -/
theorem storeReversed_loadQuad (b : Block) : storeReversed (loadQuad b).reverse = b := by
  apply Vector.toList_inj.mp
  rw [storeReversed, slice_toList _ _ (by simp)]
  simp only [loadQuad, Quad.reverse, bytesOf_cons, bytesOf_nil, unbe32_be32]
  apply List.ext_getElem
  · simp
  · intro i h1 h2
    simp at h1
    interval_cases i <;> simp

@[simp] theorem reverseKeys_toList (rk : RoundKeys) : (reverseKeys rk).toList = rk.toList.reverse := by
  apply List.ext_getElem
  · simp
  · intro i h1 h2
    simp only [Vector.length_toList] at h1
    simp only [List.getElem_reverse, Vector.getElem_toList, Vector.length_toList]
    simp [reverseKeys]

@[simp] theorem reverseKeys_reverseKeys (rk : RoundKeys) : reverseKeys (reverseKeys rk) = rk := by
  apply Vector.toList_inj.mp
  simp

end Sys2Proof.Machine
end

