-- ==== Sys2Proof/Laws/State.lean ====
section
/-! SUPPORT. What each write of a state field leaves in every field: one lemma per field per update. -/

namespace Sys2Proof.Machine.State

variable (s : State) (h : HashContext) (c : CipherContext) (b : Block) (bs : Bytes) (r : Response)

@[simp] theorem setHash_hash : (s.setHash h).hash = h := rfl
@[simp] theorem setHash_cipher : (s.setHash h).cipher = s.cipher := rfl
@[simp] theorem setHash_cmd : (s.setHash h).cmd = s.cmd := rfl
@[simp] theorem setHash_rsp : (s.setHash h).rsp = s.rsp := rfl

@[simp] theorem setCipher_hash : (s.setCipher c).hash = s.hash := rfl
@[simp] theorem setCipher_cipher : (s.setCipher c).cipher = c := rfl
@[simp] theorem setCipher_cmd : (s.setCipher c).cmd = s.cmd := rfl
@[simp] theorem setCipher_rsp : (s.setCipher c).rsp = s.rsp := rfl

@[simp] theorem setChain_hash : (s.setChain b).hash = s.hash := rfl
@[simp] theorem setChain_cfg : (s.setChain b).cipher.cfg = s.cipher.cfg := rfl
@[simp] theorem setChain_rk : (s.setChain b).cipher.rk = s.cipher.rk := rfl
@[simp] theorem setChain_iv : (s.setChain b).cipher.iv = s.cipher.iv := rfl
@[simp] theorem setChain_chain : (s.setChain b).cipher.chain = b := rfl
@[simp] theorem setChain_cmd : (s.setChain b).cmd = s.cmd := rfl
@[simp] theorem setChain_rsp : (s.setChain b).rsp = s.rsp := rfl

/-- Writing back the value `CHAIN` holds changes nothing. -/
@[simp] theorem setChain_self : s.setChain s.cipher.chain = s := rfl

@[simp] theorem setCmd_hash : (s.setCmd bs).hash = s.hash := rfl
@[simp] theorem setCmd_cipher : (s.setCmd bs).cipher = s.cipher := rfl
@[simp] theorem setCmd_cmd : (s.setCmd bs).cmd = bs := rfl
@[simp] theorem setCmd_rsp : (s.setCmd bs).rsp = s.rsp := rfl

@[simp] theorem emit_hash : (s.emit r).hash = s.hash := rfl
@[simp] theorem emit_cipher : (s.emit r).cipher = s.cipher := rfl
@[simp] theorem emit_cmd : (s.emit r).cmd = s.cmd := rfl
@[simp] theorem emit_rsp : (s.emit r).rsp = s.rsp ++ r.bytes := rfl

@[simp] theorem present_hash : (s.present bs).hash = s.hash := rfl
@[simp] theorem present_cipher : (s.present bs).cipher = s.cipher := rfl
@[simp] theorem present_cmd : (s.present bs).cmd = s.cmd ++ bs := rfl
@[simp] theorem present_rsp : (s.present bs).rsp = s.rsp := rfl

@[simp] theorem resetEvent_hash : s.resetEvent.hash = HashContext.fresh := rfl
@[simp] theorem resetEvent_cipher : s.resetEvent.cipher = CipherContext.reset := rfl
@[simp] theorem resetEvent_cmd : s.resetEvent.cmd = [] := rfl
@[simp] theorem resetEvent_rsp : s.resetEvent.rsp = s.rsp := rfl

end Sys2Proof.Machine.State
end

