-- ==== Sys2Proof/Laws/Ops.lean ====
section
/-! SUPPORT. What the shared operations can do: `respond` and `raise` always give a next state, which differs in the response
stream alone; the bytes of a response. -/

namespace Sys2Proof.Machine

/-- `respond` completes; nothing but the response stream changes. -/
theorem respond_eq (st : Status) (data : Bytes) (s : State) :
    respond st data s = .next (s.emit { status := st, cfg := s.cipher.cfg, data := data }) := rfl

/-- `raise` completes; nothing but the response stream changes, and the response has no data. -/
theorem raise_eq (e : Status) (s : State) :
    raise e s = .next (s.emit { status := e, cfg := s.cipher.cfg, data := [] }) := rfl

/-- `INVALID_KEY_LENGTH` writes the cipher context and nothing else but the response stream. -/
theorem raiseInvalidKeyLength_eq (s : State) : raiseInvalidKeyLength s =
    .next ((s.setCipher CipherContext.reset).emit { status := .invalidKeyLength, cfg := Cfg.reset, data := [] }) := rfl

/-- All that a `respond` that answers `t` says of `t`. -/
theorem respond_next {st : Status} {data : Bytes} {s t : State} (h : respond st data s = .next t) :
    t.hash = s.hash ∧ t.cipher = s.cipher ∧ t.cmd = s.cmd ∧
      t.rsp = s.rsp ++ ({ status := st, cfg := s.cipher.cfg, data := data } : Response).bytes := by
  rw [respond_eq] at h
  cases h
  exact ⟨rfl, rfl, rfl, rfl⟩

/-- All that a `raise` that answers `t` says of `t`. -/
theorem raise_next {e : Status} {s t : State} (h : raise e s = .next t) :
    t.hash = s.hash ∧ t.cipher = s.cipher ∧ t.cmd = s.cmd ∧
      t.rsp = s.rsp ++ ({ status := e, cfg := s.cipher.cfg, data := [] } : Response).bytes :=
  respond_next h

@[simp] theorem Response.bytes_length (r : Response) : r.bytes.length = 8 + r.data.length := by
  simp [Response.bytes]; omega

/-- Every status has its own code (R73). -/
theorem statusOfCode_code (st : Status) : statusOfCode st.code = some st := by
  cases st <;> decide

/-- The `CFG` byte shows every selector and flag (R26). -/
theorem cfgOfByte_byte (c : Cfg) : cfgOfByte c.byte = c := by
  obtain ⟨m, o, k, i⟩ := c
  cases m <;> cases o <;> cases k <;> cases i <;> decide

@[simp] theorem modeOfBit_modeBit (m : Mode) : modeOfBit (modeBit m) = m := by cases m <;> rfl

@[simp] theorem outFormOfBit_outFormBit (o : OutForm) : outFormOfBit (outFormBit o) = o := by cases o <;> rfl

@[simp] theorem modeBit_modeOfBit (b : Bool) : modeBit (modeOfBit b) = b := by cases b <;> rfl

@[simp] theorem outFormBit_outFormOfBit (b : Bool) : outFormBit (outFormOfBit b) = b := by cases b <;> rfl

/-- The condition of `INVALID_IV` is CBC without an IV. -/
theorem ivMissing_eq_true (c : Cfg) : ivMissing c = true ↔ c.mode = .cbc ∧ c.ivOk = false := by
  simp [ivMissing]

/-- The flag `IVOK` a `CINIT` computes is 1 exactly for a present IV of 16 bytes. -/
theorem ivAccepted_eq_true (iv : Option Bytes) : ivAccepted iv = true ↔ ∃ b, iv = some b ∧ b.length = 16 := by
  cases iv <;> simp [ivAccepted]

end Sys2Proof.Machine
end

