-- ==== Sys2Proof/Laws/Decode.lean ====
section
/-! SUPPORT. Laws of the decoder and the encoder: the packet at the front of a stream, the opcode of a byte, the modifier
bits, and the length of a packet. -/

namespace Sys2Proof

open Sys2Proof.Machine

@[simp] theorem Header.bytes_length (h : Header) : h.bytes.length = 8 := rfl

/-- The decoder on a stream that begins with a header and its whole payload (R62). -/
theorem decode_packet (h : Header) (payload rest : Bytes) (hl : payload.length = h.len.toNat) :
    decode (h.bytes ++ payload ++ rest) =
      match decodePacket h payload with
      | .ok i => .command i rest
      | .error why => .illegal why rest := by
  obtain ⟨opc, modifier, alen, rsv, len⟩ := h
  simp only at hl
  have hb : be32 (len.extractLsb' 24 8) (len.extractLsb' 16 8) (len.extractLsb' 8 8) (len.extractLsb' 0 8) = len :=
    be32_extract len
  simp only [Header.bytes, unbe32, List.cons_append, List.nil_append, decode, hb]
  rw [if_neg (by simp; omega), ← hl, List.take_left, List.drop_left]
  all_goals cases decodePacket { opc := opc, modifier := modifier, alen := alen, rsv := rsv, len := len } payload <;> rfl

/-- The decoder on a stream that does not begin with a whole packet has no command (R69). -/
theorem decode_cases (bs : Bytes) :
    (bs = [] ∧ decode bs = .short .nothing) ∨
    (bs ≠ [] ∧ bs.length < 8 ∧ decode bs = .short .header) ∨
    ∃ (h : Header) (rest : Bytes), bs = h.bytes ++ rest ∧
      ((rest.length < h.len.toNat ∧ decode bs = .short .payload) ∨
        (h.len.toNat ≤ rest.length ∧
          bs = h.bytes ++ rest.take h.len.toNat ++ rest.drop h.len.toNat)) := by
  match bs with
  | [] => exact .inl ⟨rfl, rfl⟩
  | [_] | [_, _] | [_, _, _] | [_, _, _, _] | [_, _, _, _, _] | [_, _, _, _, _, _] | [_, _, _, _, _, _, _] =>
    exact .inr (.inl ⟨by simp, by simp, rfl⟩)
  | opc :: modifier :: alen :: rsv :: l0 :: l1 :: l2 :: l3 :: rest =>
    refine .inr (.inr ⟨{ opc := opc, modifier := modifier, alen := alen, rsv := rsv, len := be32 l0 l1 l2 l3 }, rest, ?_, ?_⟩)
    · simp [Header.bytes]
    · rcases Nat.lt_or_ge rest.length (be32 l0 l1 l2 l3).toNat with h | h
      · exact .inl ⟨h, by simp [decode, h]⟩
      · exact .inr ⟨h, by simp [Header.bytes]⟩

/-- The opcode a byte selects is the one with that code (R63). -/
theorem opcodeOf_eq_some (b : Byte) (op : Opcode) : opcodeOf b = some op ↔ b = op.code := by
  revert b op
  have : ∀ b : Byte, ∀ op ∈ [Opcode.hreset, .hwrite, .hdigest, .cinit, .cenc, .cdec, .cblk],
      opcodeOf b = some op ↔ b = op.code := by decide +kernel
  intro b op
  exact this b op (by cases op <;> simp)

@[simp] theorem opcodeOf_code (op : Opcode) : opcodeOf op.code = some op := (opcodeOf_eq_some _ _).mpr rfl

@[simp] theorem modifierByte_bit0 (b2 b1 b0 : Bool) : (modifierByte b2 b1 b0).getLsbD 0 = b0 := by
  revert b2 b1 b0; decide

@[simp] theorem modifierByte_bit1 (b2 b1 b0 : Bool) : (modifierByte b2 b1 b0).getLsbD 1 = b1 := by
  revert b2 b1 b0; decide

@[simp] theorem modifierByte_bit2 (b2 b1 b0 : Bool) : (modifierByte b2 b1 b0).getLsbD 2 = b2 := by
  revert b2 b1 b0; decide

/-- A byte with no bit above bit 2 is its three low bits. -/
theorem modifierByte_of_bits (b : Byte) (h : b &&& ~~~0x07 = 0) :
    modifierByte (b.getLsbD 2) (b.getLsbD 1) (b.getLsbD 0) = b := by
  revert b; decide +kernel

@[simp] theorem headerOf_len (i : Instr) : (headerOf i).len = BitVec.ofNat 32 i.payload.length := rfl

@[simp] theorem encode_length (i : Instr) : (encode i).length = 8 + i.payload.length := by
  simp [encode]

/-- The header of a well-formed command states its payload's length. -/
theorem headerOf_len_toNat (i : Instr) (h : i.WellFormed) : (headerOf i).len.toNat = i.payload.length := by
  simp only [headerOf_len, BitVec.toNat_ofNat]
  exact Nat.mod_eq_of_lt h.1

/-- A packet states a command exactly when its reserved byte is 0, its opcode is one of the seven, no modifier bit is set that
the opcode does not use, there is no auxiliary length outside `CINIT`, and the operands can be cut from it (R66). -/
theorem decodePacket_eq_ok (h : Header) (p : Bytes) (i : Instr) : decodePacket h p = .ok i ↔
    h.rsv = 0 ∧ ∃ op : Opcode, h.opc = op.code ∧ h.modifier &&& ~~~op.modBits = 0 ∧ (op = .cinit ∨ h.alen = 0) ∧
      operands op h p = .ok i := by
  unfold decodePacket
  cases ho : opcodeOf h.opc with
  | none =>
    have hn : ∀ op : Opcode, h.opc ≠ op.code := fun op h => by simp [(opcodeOf_eq_some _ _).mpr h] at ho
    simp [hn]
  | some op =>
    have hu : ∀ op' : Opcode, h.opc = op'.code ↔ op = op' := by
      intro op'
      rw [← opcodeOf_eq_some, ho, Option.some.injEq]
    simp only [hu, exists_eq_left']
    generalize operands op h p = o
    by_cases h1 : h.rsv = 0
    · by_cases h2 : h.modifier &&& ~~~op.modBits = 0
      · by_cases h3 : op = .cinit ∨ h.alen = 0
        · rw [if_neg (by simpa using h1), if_neg (by simpa using h2), if_neg (fun h => h3.elim h.1 h.2)]
          exact ⟨fun a => ⟨h1, h2, h3, a⟩, fun a => a.2.2.2⟩
        · rw [if_neg (by simpa using h1), if_neg (by simpa using h2), if_pos (not_or.mp h3)]
          exact ⟨fun a => (by cases a), fun a => absurd a.2.2.1 h3⟩
      · rw [if_neg (by simpa using h1), if_pos h2]
        exact ⟨fun a => (by cases a), fun a => absurd a.2.1 h2⟩
    · rw [if_pos h1]
      exact ⟨fun a => (by cases a), fun a => absurd a.1 h1⟩

end Sys2Proof
end

