-- ==== Sys2Proof/Laws/Hash.lean ====
section
/-! SUPPORT. Laws of the hash functions: lengths, the message expansion word by word, the rounds one by one, and absorption as a
fold over the whole blocks of the stream. -/

namespace Sys2Proof.Machine

open Sys2Proof.Safety

@[simp] theorem extendWords_length (n : Nat) (w : List Word) : (extendWords n w).length = w.length + n := by
  induction n generalizing w with
  | zero => rfl
  | succ n ih => simp [extendWords, ih]; omega

/-- The words already there stay where they are. -/
theorem extendWords_getD_of_lt (n : Nat) (w : List Word) (j : Nat) (h : j < w.length) :
    (extendWords n w).getD j 0 = w.getD j 0 := by
  induction n generalizing w with
  | zero => rfl
  | succ n ih =>
    rw [extendWords, ih _ (by simp; omega)]
    simp [List.getD_eq_getElem?_getD, List.getElem?_append_left h]

/-- Every further word is the one `nextWord` gives for the words before it. -/
theorem extendWords_getD (n : Nat) (w : List Word) (j : Nat) (h0 : w.length ≤ j) (h1 : j < w.length + n) :
    (extendWords n w).getD j 0 = nextWord ((extendWords n w).take j) := by
  induction n generalizing w with
  | zero => omega
  | succ n ih =>
    rw [extendWords]
    rcases Nat.eq_or_lt_of_le h0 with h | h
    · subst h
      rw [extendWords_getD_of_lt _ _ _ (by simp)]
      have ht : (extendWords n (w ++ [nextWord w])).take w.length = w := by
        apply List.ext_getElem
        · simp; omega
        · intro i h2 h3
          have := extendWords_getD_of_lt n (w ++ [nextWord w]) i (by simp; omega)
          simpa [List.getD_eq_getElem?_getD, h3, List.getElem?_append_left h3, show i < w.length + 1 + n by omega] using this
      rw [ht]
      simp
    · exact ih _ (by simp; omega) (by simp; omega)

/-- `nextWord` of a prefix reads the words of the whole list. -/
theorem nextWord_take (w : List Word) (j : Nat) (h0 : 16 ≤ j) (h1 : j ≤ w.length) :
    nextWord (w.take j) = p1 (w.getD (j - 16) 0 ^^^ w.getD (j - 9) 0 ^^^ rotl (w.getD (j - 3) 0) 15) ^^^
      rotl (w.getD (j - 13) 0) 7 ^^^ w.getD (j - 6) 0 := by
  have hl : (w.take j).length = j := by simp; omega
  have hg : ∀ k, k < j → (w.take j).getD k 0 = w.getD k 0 := by
    intro k hk
    simp [List.getD_eq_getElem?_getD, hk]
  simp only [nextWord, hl]
  rw [hg _ (by omega), hg _ (by omega), hg _ (by omega), hg _ (by omega), hg _ (by omega)]

theorem expand_length (b : HashBlock) : (expand b).length = 68 := by
  simp [expand, words_length]

@[simp] theorem hashRounds_zero (w : List Word) (r : Working) : hashRounds w 0 r = r := rfl

/-- One more round. -/
theorem hashRounds_succ (w : List Word) (n : Nat) (r : Working) :
    hashRounds w (n + 1) r = hashRound n (w.getD n 0) (wPrime w n) (hashRounds w n r) := by
  simp [hashRounds, List.range_succ]

@[simp] theorem wholeBlocks_length (m : Bytes) : (wholeBlocks m).length = m.length / 64 := by
  simp [wholeBlocks]

/-- The whole blocks of a sequence of at least 64 bytes: the first, and those of the rest. -/
theorem wholeBlocks_cons (m : Bytes) (h : 64 ≤ m.length) : wholeBlocks m = slice 64 m :: wholeBlocks (m.drop 64) := by
  have hd : m.length / 64 = (m.drop 64).length / 64 + 1 := by simp; omega
  simp only [wholeBlocks, hd, List.range_succ_eq_map, List.map_cons, List.map_map]
  refine congrArg₂ _ (by simp) (List.map_congr_left fun i _ => ?_)
  simp [List.drop_drop, Nat.mul_add, Nat.add_comm]

theorem wholeBlocks_nil (m : Bytes) (h : m.length < 64) : wholeBlocks m = [] := by
  simp [wholeBlocks, Nat.div_eq_of_lt h]

/-- Absorption consumes the whole blocks in order and leaves the rest. -/
theorem absorbBlocks_eq (v : Digest8) (s : Bytes) :
    absorbBlocks (s.length / 64) v s = (foldCompress v s, s.drop (64 * (s.length / 64))) := by
  obtain ⟨n, hn⟩ : ∃ n, s.length / 64 = n := ⟨_, rfl⟩
  induction n generalizing v s with
  | zero =>
    rw [hn]
    simp [absorbBlocks, foldCompress, wholeBlocks_nil s (by omega)]
  | succ n ih =>
    have h64 : 64 ≤ s.length := by omega
    have hd : (s.drop 64).length / 64 = n := by simp; omega
    have := ih (compress v (slice 64 s)) (s.drop 64) hd
    rw [hd] at this
    rw [hn, absorbBlocks, this]
    simp only [foldCompress, wholeBlocks_cons s h64, List.foldl_cons, List.drop_drop, Prod.mk.injEq, true_and]
    congr 1
    omega

/-- Folding over a whole number of blocks and then over the rest is folding over all. -/
theorem foldCompress_append (v : Digest8) (a b : Bytes) (h : 64 ∣ a.length) :
    foldCompress v (a ++ b) = foldCompress (foldCompress v a) b := by
  obtain ⟨n, hn⟩ := h
  induction n generalizing v a with
  | zero =>
    obtain rfl := List.length_eq_zero_iff.mp (by omega : a.length = 0)
    rfl
  | succ n ih =>
    have h64 : 64 ≤ a.length := by omega
    have hs : slice 64 (a ++ b) = slice 64 a := by
      apply Vector.toList_inj.mp
      rw [slice_toList _ _ (by simp; omega), slice_toList _ _ h64, List.take_append_of_le_length h64]
    have := ih (compress v (slice 64 a)) (a.drop 64) (by simp; omega)
    simp only [foldCompress] at this ⊢
    rw [wholeBlocks_cons (a ++ b) (by simp; omega), wholeBlocks_cons a h64, List.drop_append_of_le_length h64, hs]
    simpa using this

/-- Bytes that make no whole block change no digest. -/
theorem foldCompress_short (v : Digest8) (a : Bytes) (h : a.length < 64) : foldCompress v a = v := by
  simp [foldCompress, wholeBlocks_nil a h]

/-- The bytes after the last whole block make no difference to the fold. -/
theorem foldCompress_take (v : Digest8) (a : Bytes) :
    foldCompress v (a.take (64 * (a.length / 64))) = foldCompress v a := by
  have hl : (a.take (64 * (a.length / 64))).length = 64 * (a.length / 64) := by simp; omega
  conv_rhs => rw [← List.take_append_drop (64 * (a.length / 64)) a]
  rw [foldCompress_append _ _ _ ⟨_, hl⟩, foldCompress_short _ (a.drop _) (by simp; omega)]

/-- What `absorb` writes, field by field (R89). -/
theorem absorb_eq (h : HashContext) (data : Bytes) : absorb h data =
    { v := foldCompress h.v (h.buf ++ data)
      buf := (h.buf ++ data).drop (64 * ((h.buf ++ data).length / 64))
      nbits := h.nbits + BitVec.ofNat 64 (8 * data.length) } := by
  simp only [absorb, absorbBlocks_eq]

/-- The pending bytes of a context after the bytes `m` are at most 63, as many as `m` has beyond its last whole block. -/
theorem Written_buf_length {h : HashContext} {m : Bytes} (hw : Written h m) : h.buf.length = m.length % 64 := by
  rw [hw.buf]
  simp
  omega

@[simp] theorem zeroFill_of_le (b : Nat) (h : b ≤ 55) : zeroFill b = 55 - b := by
  simp only [zeroFill]; omega

@[simp] theorem zeroFill_of_gt (b : Nat) (h0 : 55 < b) (h1 : b < 64) : zeroFill b = 119 - b := by
  simp only [zeroFill]; omega

theorem fill_length (buf : Bytes) (n : BitVec 64) : (fill buf n).length = buf.length + zeroFill buf.length + 9 := by
  simp [fill]; omega

@[simp] theorem hexBytes_length (d : Bytes) : (hexBytes d).length = 2 * d.length := by
  induction d with
  | nil => rfl
  | cons b d ih =>
    have : hexBytes (b :: d) = hexChar (b.extractLsb' 4 4) :: hexChar (b.extractLsb' 0 4) :: hexBytes d := rfl
    simp [this, ih]; omega

@[simp] theorem digestBytes_length (v : Digest8) : (digestBytes v).length = 32 := by
  simp [digestBytes, bytesOf_length]

end Sys2Proof.Machine
end

