-- ==== Sys2Proof/Laws/ModeWrapper.lean ====
section
/-! SUPPORT. Laws of the padding controller and the two modes: lengths, and what each block of a CBC run is. -/

namespace Sys2Proof.Machine

theorem padCount_pos (L : Nat) : 1 ≤ padCount L := by simp only [padCount]; omega

theorem padCount_le (L : Nat) : padCount L ≤ 16 := by simp only [padCount]; omega

/-- The padded length is the next multiple of 16 (R130). -/
theorem pad_length (p : Bytes) : (pad p).length = 16 * (p.length / 16 + 1) := by
  simp [pad, padCount]; omega

@[simp] theorem ecb_length (f : Block → Block) (qs : List Block) : (ecb f qs).length = qs.length := by
  simp [ecb]

@[simp] theorem cbcEncrypt_nil (enc : Block → Block) (chain : Block) : cbcEncrypt enc chain [] = ([], chain) := rfl

@[simp] theorem cbcEncrypt_cons (enc : Block → Block) (chain q : Block) (qs : List Block) :
    cbcEncrypt enc chain (q :: qs) =
      (enc (xorBlock q chain) :: (cbcEncrypt enc (enc (xorBlock q chain)) qs).1,
        (cbcEncrypt enc (enc (xorBlock q chain)) qs).2) := rfl

@[simp] theorem cbcDecrypt_nil (dec : Block → Block) (chain : Block) : cbcDecrypt dec chain [] = ([], chain) := rfl

@[simp] theorem cbcDecrypt_cons (dec : Block → Block) (chain q : Block) (qs : List Block) :
    cbcDecrypt dec chain (q :: qs) =
      (xorBlock (dec q) chain :: (cbcDecrypt dec q qs).1, (cbcDecrypt dec q qs).2) := rfl

@[simp] theorem cbcEncrypt_length (enc : Block → Block) (chain : Block) (qs : List Block) :
    (cbcEncrypt enc chain qs).1.length = qs.length := by
  induction qs generalizing chain with
  | nil => rfl
  | cons q qs ih => simp [ih]

@[simp] theorem cbcDecrypt_length (dec : Block → Block) (chain : Block) (qs : List Block) :
    (cbcDecrypt dec chain qs).1.length = qs.length := by
  induction qs generalizing chain with
  | nil => rfl
  | cons q qs ih => simp [ih]

/-- Block `i` of a CBC encryption: the chain value it meets is the block before it, or the first chain value (R137). -/
theorem cbcEncrypt_getElem? (enc : Block → Block) (chain : Block) (qs : List Block) (i : Nat) :
    (cbcEncrypt enc chain qs).1[i]? =
      (qs[i]?).map fun q => enc (xorBlock q ((chain :: (cbcEncrypt enc chain qs).1).getD i chain)) := by
  induction qs generalizing chain i with
  | nil => simp
  | cons q qs ih =>
    cases i with
    | zero => simp
    | succ i =>
      simp only [cbcEncrypt_cons, List.getElem?_cons_succ, List.getD_cons_succ, ih]
      cases hq : qs[i]? with
      | none => rfl
      | some q' =>
        have hi : i < qs.length := by
          rcases Nat.lt_or_ge i qs.length with h | h
          · exact h
          · simp [List.getElem?_eq_none h] at hq
        have hl : ∀ c : Block, i < (c :: (cbcEncrypt enc c qs).1).length := by intro c; simp; omega
        simp only [Option.map_some, List.getD_eq_getElem?_getD, List.getElem?_eq_getElem (hl _), Option.getD_some]

/-- The chain value after a CBC encryption is the last ciphertext block, or the first chain value (R137). -/
theorem cbcEncrypt_snd (enc : Block → Block) (chain : Block) (qs : List Block) :
    (cbcEncrypt enc chain qs).2 = (chain :: (cbcEncrypt enc chain qs).1).getD qs.length chain := by
  induction qs generalizing chain with
  | nil => rfl
  | cons q qs ih =>
    simp only [cbcEncrypt_cons, List.length_cons, List.getD_cons_succ, ih]
    have hl : ∀ c : Block, qs.length < (c :: (cbcEncrypt enc c qs).1).length := by intro c; simp
    simp only [List.getD_eq_getElem?_getD, List.getElem?_eq_getElem (hl _), Option.getD_some]

/-- Block `i` of a CBC decryption: the chain value it meets is the ciphertext block before it, or the first chain value
(R138). -/
theorem cbcDecrypt_getElem? (dec : Block → Block) (chain : Block) (qs : List Block) (i : Nat) :
    (cbcDecrypt dec chain qs).1[i]? = (qs[i]?).map fun q => xorBlock (dec q) ((chain :: qs).getD i chain) := by
  induction qs generalizing chain i with
  | nil => simp
  | cons q qs ih =>
    cases i with
    | zero => simp
    | succ i =>
      simp only [cbcDecrypt_cons, List.getElem?_cons_succ, List.getD_cons_succ, ih]
      cases hq : qs[i]? with
      | none => rfl
      | some q' =>
        have hi : i < qs.length := by
          rcases Nat.lt_or_ge i qs.length with h | h
          · exact h
          · simp [List.getElem?_eq_none h] at hq
        have hl : ∀ c : Block, i < (c :: qs).length := by intro c; simp; omega
        simp only [Option.map_some, List.getD_eq_getElem?_getD, List.getElem?_eq_getElem (hl _), Option.getD_some]

/-- The chain value after a CBC decryption is the last ciphertext block, or the first chain value (R138). -/
theorem cbcDecrypt_snd (dec : Block → Block) (chain : Block) (qs : List Block) :
    (cbcDecrypt dec chain qs).2 = (chain :: qs).getD qs.length chain := by
  induction qs generalizing chain with
  | nil => rfl
  | cons q qs ih =>
    simp only [cbcDecrypt_cons, List.length_cons, List.getD_cons_succ, ih]
    have hl : ∀ c : Block, qs.length < (c :: qs).length := by intro c; simp
    simp only [List.getD_eq_getElem?_getD, List.getElem?_eq_getElem (hl _), Option.getD_some]

/-- The lengths of what the modes give, whatever the mode is. -/
@[simp] theorem encryptBlocks_length (c : CipherContext) (qs : List Block) :
    (encryptBlocks c qs).1.length = qs.length := by
  unfold encryptBlocks
  split <;> simp

@[simp] theorem decryptBlocks_length (c : CipherContext) (qs : List Block) :
    (decryptBlocks c qs).1.length = qs.length := by
  unfold decryptBlocks
  split <;> simp

theorem depad_length_le (q : Bytes) : (depad q).length ≤ q.length := by
  simp [depad]

@[simp] theorem blocks_length (s : Bytes) : (blocks s).length = s.length / 16 := by
  simp [blocks]

/-- Block `i` of the blocks of a byte sequence is its bytes `16 i` to `16 i + 15` (R45). -/
theorem blocks_getElem? (s : Bytes) (i : Nat) (h : i < s.length / 16) :
    (blocks s)[i]? = some (slice 16 (s.drop (16 * i))) :=
  takeBlocks_getElem? _ _ _ h

/-- The bytes of the blocks of a whole number of blocks are the bytes themselves. -/
theorem blocksBytes_blocks (s : Bytes) (h : 16 ∣ s.length) : blocksBytes (blocks s) = s := by
  rw [blocks, blocksBytes_takeBlocks]
  omega

/-- The blocks of the bytes of a list of blocks are those blocks. -/
theorem blocks_blocksBytes (bs : List Block) : blocks (blocksBytes bs) = bs := by
  rw [blocks, blocksBytes_length, Nat.mul_div_cancel_left _ (by omega), takeBlocks_blocksBytes]

end Sys2Proof.Machine
end

