-- ==== Sys2Proof/Laws/Exec.lean ====
section
/-! SUPPORT. What each meaning answers, as a next state written out: one lemma per case of a meaning, so that no later proof
unfolds one. -/

namespace Sys2Proof.Machine

open Sys2Proof.Safety

theorem exec_hreset (s : State) : exec .hreset s =
    .next ((s.setHash HashContext.fresh).emit { status := .ok, cfg := s.cipher.cfg, data := [] }) := rfl

theorem exec_hwrite (data : Bytes) (s : State) : exec (.hwrite data) s =
    .next ((s.setHash (absorb s.hash data)).emit { status := .ok, cfg := s.cipher.cfg, data := [] }) := rfl

theorem exec_hdigest (m : Option Bytes) (hex : Bool) (s : State) : exec (.hdigest m hex) s =
    .next ((s.setHash HashContext.fresh).emit
      { status := .ok, cfg := s.cipher.cfg, data := digestData (finalize (digestContext s.hash m)) hex }) := rfl

theorem exec_cinit_key (key : Bytes) (iv : Option Bytes) (m : Mode) (o : OutForm) (s : State) (h : key.length = 16) :
    exec (.cinit key iv m o) s =
      .next ((s.setCipher (constructCipher Config.tables key iv m o)).emit
        { status := .ok, cfg := cfgConstructed iv m o, data := [] }) := by
  simp only [exec, execCinit, h, if_true, respond_eq]
  rfl

theorem exec_cinit_badKey (key : Bytes) (iv : Option Bytes) (m : Mode) (o : OutForm) (s : State) (h : key.length ≠ 16) :
    exec (.cinit key iv m o) s =
      .next ((s.setCipher CipherContext.reset).emit { status := .invalidKeyLength, cfg := Cfg.reset, data := [] }) := by
  simp only [exec, execCinit, h, if_false, raiseInvalidKeyLength_eq]

/-- The transform a `CBLK` applies. -/
def cblkTransform (s : State) (dec : Bool) : Block → Block :=
  if dec then decBlock Config.tables s.cipher.rk else encBlock Config.tables s.cipher.rk

theorem exec_cblk_ok (b : Bytes) (dec : Bool) (s : State) (hk : s.cipher.cfg.keyOk = true) (hb : b.length = 16) :
    exec (.cblk b dec) s =
      .next (s.emit { status := .ok, cfg := s.cipher.cfg, data := (cblkTransform s dec (slice 16 b)).toList }) := by
  cases dec <;> simp [exec, execCblk, hk, hb, respond_eq, cblkTransform]

theorem exec_cenc_ok (p : Bytes) (s : State) (hr : CipherReady s.cipher) (hp : p.length ≤ 0xFFFFFFEF) :
    exec (.cenc p) s =
      .next ((s.setChain (encryptBlocks s.cipher (blocks (pad p))).2).emit
        { status := .ok, cfg := s.cipher.cfg, data := blocksBytes (encryptBlocks s.cipher (blocks (pad p))).1 }) := by
  have hi : ivMissing s.cipher.cfg = false := by
    have := hr.2
    cases hm : s.cipher.cfg.mode <;> simp_all [ivMissing]
  simp [exec, execCenc, hr.1, hi, Config.maxPlaintext, Nat.not_lt.mpr hp, respond_eq]

theorem exec_cdec_ok (c : Bytes) (s : State) (hr : CipherReady s.cipher) (h0 : c ≠ []) (h16 : 16 ∣ c.length) :
    exec (.cdec c) s =
      .next ((s.setChain (decryptBlocks s.cipher (blocks c)).2).emit
        { status := .ok, cfg := s.cipher.cfg, data := depad (blocksBytes (decryptBlocks s.cipher (blocks c)).1) }) := by
  have hi : ivMissing s.cipher.cfg = false := by
    have := hr.2
    cases hm : s.cipher.cfg.mode <;> simp_all [ivMissing]
  simp [exec, execCdec, hr.1, hi, h0, Nat.mod_eq_zero_of_dvd h16, respond_eq]

/-- A command that meets an error condition, other than a `CINIT`, changes nothing but the response stream (R152). -/
theorem exec_error (i : Instr) (s : State) (e : Status) (h : errorOf s i = some e) (hc : UsesCipher i) :
    exec i s = .next (s.emit { status := e, cfg := s.cipher.cfg, data := [] }) := by
  cases i with
  | hreset => exact hc.elim
  | hwrite _ => exact hc.elim
  | hdigest _ _ => exact hc.elim
  | cinit _ _ _ _ => exact hc.elim
  | cenc p =>
    simp only [errorOf] at h
    simp only [exec, execCenc, Config.maxPlaintext, ivMissing_eq_true]
    split at h <;> simp_all [raise_eq]
    split at h <;> simp_all
  | cdec c =>
    simp only [errorOf, Nat.dvd_iff_mod_eq_zero] at h
    simp only [exec, execCdec, ivMissing_eq_true]
    split at h <;> simp_all [raise_eq]
    split at h <;> simp_all
  | cblk b dec =>
    simp only [errorOf] at h
    simp only [exec, execCblk]
    split at h <;> simp_all [raise_eq]

/-- A `CENC` meets no error exactly in a ready context with a plaintext that fits. -/
theorem errorOf_cenc_none (p : Bytes) (s : State) :
    errorOf s (.cenc p) = none ↔ CipherReady s.cipher ∧ p.length ≤ 0xFFFFFFEF := by
  simp only [errorOf, CipherReady]
  cases s.cipher.cfg.keyOk <;> cases s.cipher.cfg.mode <;> cases s.cipher.cfg.ivOk <;> simp

/-- A `CDEC` meets no error exactly in a ready context with a non-empty whole number of blocks. -/
theorem errorOf_cdec_none (c : Bytes) (s : State) :
    errorOf s (.cdec c) = none ↔ CipherReady s.cipher ∧ c ≠ [] ∧ 16 ∣ c.length := by
  simp only [errorOf, CipherReady]
  cases s.cipher.cfg.keyOk <;> cases s.cipher.cfg.mode <;> cases s.cipher.cfg.ivOk <;> simp

/-- A `CBLK` meets no error exactly with a key and a 16-byte block. -/
theorem errorOf_cblk_none (b : Bytes) (dec : Bool) (s : State) :
    errorOf s (.cblk b dec) = none ↔ s.cipher.cfg.keyOk = true ∧ b.length = 16 := by
  simp only [errorOf]
  cases s.cipher.cfg.keyOk <;> simp

/-- The error a command meets depends on the flags and the mode alone. -/
theorem errorOf_congr (i : Instr) (s u : State) (hk : u.cipher.cfg.keyOk = s.cipher.cfg.keyOk)
    (hm : u.cipher.cfg.mode = s.cipher.cfg.mode) (hv : u.cipher.cfg.ivOk = s.cipher.cfg.ivOk) :
    errorOf u i = errorOf s i := by
  cases i <;> simp only [errorOf, hk, hm, hv]

end Sys2Proof.Machine
end

