-- ==== Sys2Proof/Laws/PerInstr.lean ====
section
/-! SUPPORT. Per instruction: its row of spec/opcode_table.json. -/

namespace Sys2Proof.Laws.TableRow

open Sys2Proof.Machine

/-- The first word of a command as the opcode table numbers its bits: `OPC` 63:56, `MOD` 55:48, `ALEN` 47:40, `RSV` 39:32,
`LEN` 31:0. -/
def headerWord (h : Header) : BitVec 64 :=
  h.opc ++ h.modifier ++ h.alen ++ h.rsv ++ h.len

/-- The `match` of a command's row in spec/opcode_table.json. -/
def rowMatch : Instr → BitVec 64
  | .hreset => 0x0100000000000000
  | .hwrite _ => 0x0200000000000000
  | .hdigest _ _ => 0x0300000000000000
  | .cinit _ _ _ _ => 0x1000000000000000
  | .cenc _ => 0x1100000000000000
  | .cdec _ => 0x1200000000000000
  | .cblk _ _ => 0x1300000000000000

/-- The `mask` of a command's row in spec/opcode_table.json. -/
def rowMask : Instr → BitVec 64
  | .hreset => 0xffffffffffffffff
  | .hwrite _ => 0xffffffff00000000
  | .hdigest _ _ => 0xfffcffff00000000
  | .cinit _ _ _ _ => 0xfff800ff00000000
  | .cenc _ => 0xffffffff00000000
  | .cdec _ => 0xffffffff00000000
  | .cblk _ _ => 0xfffeffff00000000

/-- The first word of a command's packet is one its table row matches, and its `LEN` field says how many payload bytes follow. -/
def Statement (i : Instr) : Prop :=
  headerWord (headerOf i) &&& rowMask i = rowMatch i ∧
    (i.WellFormed → (headerOf i).len.toNat = i.payload.length ∧ (encode i).length = 8 + (headerOf i).len.toNat)

/-- A word and a mask, field by field. -/
theorem headerWord_and (h m : Header) : headerWord h &&& headerWord m = headerWord
    { opc := h.opc &&& m.opc, modifier := h.modifier &&& m.modifier, alen := h.alen &&& m.alen, rsv := h.rsv &&& m.rsv,
      len := h.len &&& m.len } := by
  have e4 : (h.opc ++ h.modifier ++ h.alen ++ h.rsv) &&& (m.opc ++ m.modifier ++ m.alen ++ m.rsv) =
      (h.opc &&& m.opc) ++ (h.modifier &&& m.modifier) ++ (h.alen &&& m.alen) ++ (h.rsv &&& m.rsv) := by
    rw [BitVec.and_append, BitVec.and_append, BitVec.and_append]
  exact BitVec.and_append.trans (congrArg (· ++ (h.len &&& m.len)) e4)

/-- The length field of a well-formed command. -/
theorem lengthField (i : Instr) (h : i.WellFormed) :
    (headerOf i).len.toNat = i.payload.length ∧ (encode i).length = 8 + (headerOf i).len.toNat := by
  rw [encode_length, headerOf_len_toNat i h]
  exact ⟨rfl, rfl⟩

/-- A command matches its row when its fields do, the length field being free. -/
theorem matches_of_fields (i : Instr) (m r : Header) (hm : rowMask i = headerWord m) (hr : rowMatch i = headerWord r)
    (h1 : (headerOf i).opc &&& m.opc = r.opc) (h2 : (headerOf i).modifier &&& m.modifier = r.modifier)
    (h3 : (headerOf i).alen &&& m.alen = r.alen) (h4 : (headerOf i).rsv &&& m.rsv = r.rsv)
    (h5 : (headerOf i).len &&& m.len = r.len) : headerWord (headerOf i) &&& rowMask i = rowMatch i := by
  rw [hm, hr, headerWord_and, h1, h2, h3, h4, h5]

theorem code_and_ff (op : Opcode) : op.code &&& 0xff = op.code := by
  cases op <;> decide

theorem modifierByte_and_fc (b1 b0 : Bool) : modifierByte false b1 b0 &&& 0xfc = 0 := by
  revert b1 b0; decide

theorem modifierByte_and_f8 (b2 b1 b0 : Bool) : modifierByte b2 b1 b0 &&& 0xf8 = 0 := by
  revert b2 b1 b0; decide

theorem modifierByte_and_fe (b0 : Bool) : modifierByte false false b0 &&& 0xfe = 0 := by
  revert b0; decide

theorem hreset : Statement .hreset :=
  ⟨by decide, lengthField _⟩

theorem hwrite (data : Bytes) : Statement (.hwrite data) :=
  ⟨matches_of_fields _ ⟨0xff, 0xff, 0xff, 0xff, 0⟩ ⟨0x02, 0, 0, 0, 0⟩ rfl rfl (code_and_ff _) BitVec.zero_and
    BitVec.zero_and BitVec.zero_and BitVec.and_zero, lengthField _⟩

theorem hdigest (message : Option Bytes) (hex : Bool) : Statement (.hdigest message hex) :=
  ⟨matches_of_fields _ ⟨0xff, 0xfc, 0xff, 0xff, 0⟩ ⟨0x03, 0, 0, 0, 0⟩ rfl rfl (code_and_ff _)
    (modifierByte_and_fc hex message.isSome) BitVec.zero_and BitVec.zero_and BitVec.and_zero, lengthField _⟩

theorem cinit (key : Bytes) (iv : Option Bytes) (mode : Mode) (outform : OutForm) :
    Statement (.cinit key iv mode outform) :=
  ⟨matches_of_fields _ ⟨0xff, 0xf8, 0, 0xff, 0⟩ ⟨0x10, 0, 0, 0, 0⟩ rfl rfl (code_and_ff _)
    (modifierByte_and_f8 iv.isSome (outFormBit outform) (modeBit mode)) BitVec.and_zero BitVec.zero_and BitVec.and_zero,
    lengthField _⟩

theorem cenc (plaintext : Bytes) : Statement (.cenc plaintext) :=
  ⟨matches_of_fields _ ⟨0xff, 0xff, 0xff, 0xff, 0⟩ ⟨0x11, 0, 0, 0, 0⟩ rfl rfl (code_and_ff _) BitVec.zero_and
    BitVec.zero_and BitVec.zero_and BitVec.and_zero, lengthField _⟩

theorem cdec (ciphertext : Bytes) : Statement (.cdec ciphertext) :=
  ⟨matches_of_fields _ ⟨0xff, 0xff, 0xff, 0xff, 0⟩ ⟨0x12, 0, 0, 0, 0⟩ rfl rfl (code_and_ff _) BitVec.zero_and
    BitVec.zero_and BitVec.zero_and BitVec.and_zero, lengthField _⟩

theorem cblk (block : Bytes) (dec : Bool) : Statement (.cblk block dec) :=
  ⟨matches_of_fields _ ⟨0xff, 0xfe, 0xff, 0xff, 0⟩ ⟨0x13, 0, 0, 0, 0⟩ rfl rfl (code_and_ff _) (modifierByte_and_fe dec)
    BitVec.zero_and BitVec.zero_and BitVec.and_zero, lengthField _⟩

end Sys2Proof.Laws.TableRow
end

