-- ==== Sys2Proof/Tests/Slice0.lean ====
section
/-! SUPPORT. The model's own tests: ill-formed terms the check refuses; packets written out from the spec's encoding (30_encoding.md
R61 to R66, 95_test_vectors.md section 10); single steps whose results are those of 95_test_vectors.md; and, for every statement
with hypotheses, a state and operands that meet them. -/

namespace Sys2Proof.Tests

set_option Elab.async false

open Sys2Proof.Machine Sys2Proof.Safety

/-- `n` bytes of a number, most significant first. -/
def be (n w : Nat) : Bytes := (lowBytes n w).reverse

/-- A block from a number. -/
def block (w : Nat) : Block := slice 16 (be 16 w)

/-- The key of 95_test_vectors.md section 6.2. -/
def key : Bytes := be 16 0x0123456789abcdeffedcba9876543210

/-- The initialisation vector of 95_test_vectors.md section 8.3. -/
def iv : Bytes := be 16 0x000102030405060708090a0b0c0d0e0f

/-- After reset and a `CINIT` with the key, the IV and a mode. -/
def keyed (mode : Mode) : State :=
  { State.reset with cipher := constructCipher Config.tables key (some iv) mode .base64 }

/-- After reset and an `HWRITE`. -/
def written (m : Bytes) : State :=
  { State.reset with hash := absorb HashContext.fresh m }

/-- The state an outcome gives. -/
def stateOf : Host.Outcome State Fault Refusal → Option State
  | .next s => some s
  | .fault _ => none
  | .refused _ => none

/-- The response stream after an outcome. -/
def answer (o : Host.Outcome State Fault Refusal) : Option Bytes :=
  (stateOf o).map State.rsp

/-! ## Well-formedness -/

/-- There is a byte sequence of every length. -/
theorem bytes_of_length (n : Nat) : ∃ data : Bytes, data.length = n := ⟨List.replicate n 0, List.length_replicate⟩

theorem test_wellFormed_refuses_payload_of_2_to_32 : ∃ data : Bytes, data.length = 2 ^ 32 ∧ ¬ (Instr.hwrite data).PayloadFits :=
  (bytes_of_length (2 ^ 32)).imp fun _ h => ⟨h, by simp [Instr.payload, h]⟩

theorem test_wellFormed_takes_largest_payload : ∃ data : Bytes, data.length + 1 = 2 ^ 32 ∧ (Instr.hwrite data).WellFormed := by
  obtain ⟨data, h⟩ := bytes_of_length (2 ^ 32 - 1)
  have h' : data.length + 1 = 2 ^ 32 := by omega
  exact ⟨data, h', Nat.lt_of_succ_le (Nat.le_of_eq h'), Nat.two_pow_pos 8⟩

theorem test_wellFormed_refuses_key_of_256 : ¬ (Instr.cinit (List.replicate 256 0) none .cbc .base64).KeyFits := by
  decide +kernel

theorem test_wellFormed_takes_key_of_255 : (Instr.cinit (List.replicate 255 0) none .cbc .base64).WellFormed := by
  decide +kernel

/-! ## Decoding: packets of 95_test_vectors.md section 10.1 -/

theorem test_decode_hreset : decode (be 8 0x0100000000000000) = .command .hreset [] := by decide +kernel

theorem test_decode_hwrite : decode (be 11 0x0200000000000003616263) = .command (.hwrite [0x61, 0x62, 0x63]) [] ∧
    decode (be 8 0x0200000000000000) = .command (.hwrite []) [] := by decide +kernel

theorem test_decode_hdigest : decode (be 8 0x0300000000000000) = .command (.hdigest none false) [] ∧
    decode (be 8 0x0302000000000000) = .command (.hdigest none true) [] ∧
    decode (be 11 0x0301000000000003616263) = .command (.hdigest (some [0x61, 0x62, 0x63]) false) [] ∧
    decode (be 8 0x0303000000000000) = .command (.hdigest (some []) true) [] := by decide +kernel

theorem test_decode_cinit :
    decode (be 8 0x1000100000000010 ++ key) = .command (.cinit key none .cbc .base64) [] ∧
    decode (be 8 0x1004100000000020 ++ key ++ iv) = .command (.cinit key (some iv) .cbc .base64) [] ∧
    decode (be 8 0x1003100000000010 ++ key) = .command (.cinit key none .ecb .text) [] ∧
    decode (be 8 0x1005100000000020 ++ key ++ iv) = .command (.cinit key (some iv) .ecb .base64) [] ∧
    decode (be 8 0x1004100000000010 ++ key) = .command (.cinit key (some []) .cbc .base64) [] := by decide +kernel

theorem test_decode_cenc : decode (be 9 0x110000000000000141) = .command (.cenc [0x41]) [] := by decide +kernel

theorem test_decode_cdec : decode (be 24 0x1200000000000010002a8a4efa863ccad024ac0300bb40d2) =
    .command (.cdec (be 16 0x002a8a4efa863ccad024ac0300bb40d2)) [] := by decide +kernel

theorem test_decode_cblk : decode (be 8 0x1300000000000010 ++ key) = .command (.cblk key false) [] ∧
    decode (be 8 0x1301000000000010 ++ key) = .command (.cblk key true) [] := by decide +kernel

/-- The next packet begins where the payload ends (R62). -/
theorem test_decode_leaves_rest :
    decode (be 10 0x02000000000000016101) = .command (.hwrite [0x61]) [0x01] := by decide +kernel

/-- A packet that is not whole (R69). -/
theorem test_decode_short : decode [] = .short .nothing ∧ decode (be 7 0x01000000000000) = .short .header ∧
    decode (be 10 0x02000000000000036162) = .short .payload := by decide +kernel

/-- The encoder's modifier bits and lengths, against packets of section 10.1. -/
theorem test_encode_cinit : encode (.cinit key (some iv) .ecb .text) = be 8 0x1007100000000020 ++ key ++ iv := by
  decide +kernel

/-- The illegal packets of 95_test_vectors.md section 10.2. -/
def illegalPackets : List (Bytes × Illegal) :=
  [(be 8 0x0000000000000000, .reservedOpcode),
   (be 8 0x0400000000000000, .reservedOpcode),
   (be 10 0x0f000000000000027a7a, .reservedOpcode),
   (be 8 0x1400000000000000, .reservedOpcode),
   (be 8 0xff00000000000000, .reservedOpcode),
   (be 9 0x010000000000000178, .payloadLength),
   (be 8 0x0101000000000000, .reservedModifier),
   (be 11 0x0201000000000003616263, .reservedModifier),
   (be 11 0x0200010000000003616263, .auxLength),
   (be 11 0x0200000100000003616263, .reservedByte),
   (be 11 0x0300000000000003616263, .payloadLength),
   (be 8 0x0304000000000000, .reservedModifier),
   (be 24 0x10001100000000100123456789abcdeffedcba9876543210, .auxLength),
   (be 25 0x10001000000000110123456789abcdeffedcba987654321000, .payloadLength),
   (be 24 0x10081000000000100123456789abcdeffedcba9876543210, .reservedModifier),
   (be 9 0x110100000000000141, .reservedModifier),
   (be 24 0x120010000000001000000000000000000000000000000000, .auxLength),
   (be 24 0x13020000000000100123456789abcdeffedcba9876543210, .reservedModifier)]

theorem test_decode_illegal : ∀ p ∈ illegalPackets, decode p.1 = .illegal p.2 [] := by decide +kernel

/-- Each is answered with `ILLEGAL_COMMAND`, its payload consumed, and no other state changed (R67, R151). -/
theorem test_step_illegal : ∀ p ∈ illegalPackets,
    stateOf (step ((written [0x61, 0x62]).present p.1)) =
      some { written [0x61, 0x62] with rsp := be 8 0x0100000000000000 } := by decide +kernel

/-- A table word run as the first command after reset. -/
theorem test_withFetchWord :
    answer (step (State.reset.withFetchWord 64 0x1200000000000000)) = some (be 8 0x0400000000000000) := by decide +kernel

/-! ## Operand forms and word functions (95_test_vectors.md sections 5.1, 6.1) -/

theorem test_rotl : rotl 0x12345678 12 = 0x45678123 ∧ rotl 0x7a879d8a 63 = 0x3d43cec5 ∧ rotl 0x80000000 0 = 0x80000000 := by
  decide

theorem test_hash_word_functions : p0 0x12345678 = 0xd6688234 ∧ p1 0x12345678 = 0x05014549 ∧
    ff 15 0x7380166f 0x4914b2b9 0x172442d7 = 0x2db0e601 ∧ ff 16 0x7380166f 0x4914b2b9 0x172442d7 = 0x530412ff ∧
    gg 15 0x7380166f 0x4914b2b9 0x172442d7 = 0x2db0e601 ∧ gg 16 0x7380166f 0x4914b2b9 0x172442d7 = 0x452452b9 := by decide

theorem test_cipher_word_functions : tau Config.tables 0x00010203 = 0xd690e9fe ∧
    mixBlock Config.tables 0x8283cb69 = 0xce9f368b ∧ mixKey Config.tables 0xf002c39e = 0x7233c565 := by decide +kernel

/-! ## One command -/

/-- The state after `HRESET` is fresh again (R94). -/
theorem test_hreset : (stateOf (exec .hreset (written [0x78, 0x79]))).map State.hash = some HashContext.fresh := by
  decide +kernel

/-- Section 5.3: 60 and then 4 bytes reach one block. -/
theorem test_hwrite_completes_block : (stateOf (exec (.hwrite (List.replicate 4 0x61)) (written (List.replicate 60 0x61)))).map
    State.hash = some { v := #v[0xa5136b61, 0x62610c3f, 0x9a9386e6, 0xdb0fe112, 0x30e6de4f, 0x89892d3b, 0x853b0db1, 0xf25a078f]
                        buf := [], nbits := 512 } := by decide +kernel

/-- Section 5.3: the counter wraps (R24). -/
theorem test_hwrite_counter_wraps :
    (absorb { HashContext.fresh with nbits := 0xfffffffffffffff0 } [1, 2, 3]).nbits = 8 := by decide +kernel

/-- P1 command 4: the digest of "abc". -/
theorem test_hdigest_abc : answer (exec (.hdigest (some [0x61, 0x62, 0x63]) false) State.reset) =
    some (be 8 0x20 ++ be 32 0x66c7f0f462eeedd9d1f2d46bdc10e4e24167c4875cf2f7a2297da02b8f4ba8e0) := by decide +kernel

/-- P5 command 4: 63 pending bytes pad into a second block. -/
theorem test_hdigest_63 : answer (exec (.hdigest none false) (written (List.replicate 63 0x61))) =
    some (be 8 0x20 ++ be 32 0x587308543551881ebd70d27ad358ff5dcdf24ac54822e2f7b7c3edce0985d21b) := by decide +kernel

/-- The 36 words `K[0..35]` of section 6.2. -/
def keyWordsOfSection6 : List Word :=
    [0xa292ffa1, 0xdf01febf, 0x99a12b0f, 0xc42410cc] ++
    [0xf12186f9, 0x41662b61, 0x5a6ab19a, 0x7ba92077] ++
    [0x367360f4, 0x776a0c61, 0xb6bb89b3, 0x24763151] ++
    [0xa520307c, 0xb7584dbd, 0xc30753ed, 0x7ee55b57] ++
    [0x6988608c, 0x30d895b7, 0x44ba14af, 0x104495a1] ++
    [0xd120b428, 0x73b55fa3, 0xcc874966, 0x92244439] ++
    [0xe89e641f, 0x98ca015a, 0xc7159060, 0x99e1fd2e] ++
    [0xb79bd80c, 0x1d2115b0, 0x0e228aeb, 0xf1780c81] ++
    [0x428d3654, 0x62293496, 0x01cf72e5, 0x9124a012]

/-- Section 10.3, row 13, and section 6.2: the constructed context. -/
theorem test_cinit : stateOf (exec (.cinit key (some iv) .cbc .base64) State.reset) = some
    { State.reset with
      cipher :=
        { cfg := { mode := .cbc, outform := .base64, keyOk := true, ivOk := true }
          rk := Vector.ofFn fun i => keyWordsOfSection6.getD (i.val + 4) 0
          iv := Vector.ofFn fun i => BitVec.ofNat 8 i.val, chain := Vector.replicate 16 0 }
      rsp := be 8 0x000c000000000000 } := by decide +kernel

/-- Section 10.3, rows 19 and 12: a key of 17 bytes, an IV of 17 bytes. -/
theorem test_cinit_lengths :
    stateOf (exec (.cinit (key ++ [0]) (some iv) .cbc .base64) (keyed .ecb)) =
      some { State.reset with rsp := be 8 0x0200000000000000 } ∧
    answer (exec (.cinit key (some (List.replicate 17 0)) .cbc .base64) State.reset) = some (be 8 0x0004000000000000) := by
  decide +kernel

/-- P2 command 2: two blocks in CBC, and `CHAIN` after it. -/
theorem test_cenc_cbc :
    stateOf (exec (.cenc (be 20 0x68656c6c6f2c20676d2d63727970742043424321)) (keyed .cbc)) =
      some { ((keyed .cbc).setChain (block 0x3cd61b9dcfa5134fc9a83d4b5655c42a)) with
        rsp := be 8 0x000c000000000020 ++ be 32 0x4e26c0640854b04a927e2ae42492a5793cd61b9dcfa5134fc9a83d4b5655c42a } := by
  decide +kernel

/-- Section 8.2: an empty plaintext is one padding block; `CHAIN` stays (the IV given in ECB sets `IVOK`). -/
theorem test_cenc_ecb : stateOf (exec (.cenc []) (keyed .ecb)) =
    some { keyed .ecb with rsp := be 8 0x000d000000000010 ++ be 16 0x002a8a4efa863ccad024ac0300bb40d2 } := by decide +kernel

/-- P2 command 3: back again. -/
theorem test_cdec_cbc :
    answer (exec (.cdec (be 32 0x4e26c0640854b04a927e2ae42492a5793cd61b9dcfa5134fc9a83d4b5655c42a)) (keyed .cbc)) =
      some (be 8 0x000c000000000014 ++ be 20 0x68656c6c6f2c20676d2d63727970742043424321) := by decide +kernel

/-- P6 command 3: a padding byte above the length leaves nothing. -/
theorem test_cdec_excess_padding : answer (exec (.cdec (be 16 0xa54e4cd075d8d50d38f26c2bc5aae7e4)) (keyed .ecb)) =
    some (be 8 0x000d000000000000) := by decide +kernel

/-- P3 commands 2 and 3: the published vector, both ways. -/
theorem test_cblk :
    answer (exec (.cblk key false) (keyed .ecb)) = some (be 8 0x000d000000000010 ++ be 16 0x681edf34d206965e86b3e94f536e4246) ∧
    answer (exec (.cblk (be 16 0x681edf34d206965e86b3e94f536e4246) true) (keyed .ecb)) =
      some (be 8 0x000d000000000010 ++ key) := by decide +kernel

/-- Section 10.3, rows 2, 3, 8, 15 and 16: which error comes first. -/
theorem test_error_priority :
    answer (exec (.cdec []) State.reset) = some (be 8 0x0400000000000000) ∧
    answer (exec (.cblk [0x73] false) State.reset) = some (be 8 0x0400000000000000) ∧
    answer (exec (.cdec (List.replicate 15 0))
      { State.reset with cipher := { CipherContext.reset with cfg := { Cfg.reset with keyOk := true } } }) =
      some (be 8 0x0304000000000000) ∧
    answer (exec (.cdec (List.replicate 17 0)) (keyed .cbc)) = some (be 8 0x050c000000000000) ∧
    answer (exec (.cblk (List.replicate 17 0) true) (keyed .cbc)) = some (be 8 0x050c000000000000) := by decide +kernel

/-- Section 8.1: the padding of 0, 15 and 16 bytes, and a count that reaches into the block before. -/
theorem test_padding : pad [] = List.replicate 16 0x10 ∧ pad (List.replicate 15 0x41) = List.replicate 15 0x41 ++ [1] ∧
    pad (List.replicate 16 0x41) = List.replicate 16 0x41 ++ List.replicate 16 0x10 ∧
    depad (be 16 0x303132333435363738393a3b3c3d3e3f ++ be 16 0x303132333435363738393a3b3c3d3e11) =
      be 15 0x303132333435363738393a3b3c3d3e := by decide +kernel

/-- Section 10.1 in the other direction: lines of assembler text (R76, R77). -/
theorem test_assembler :
    assembleLine "HRESET  # reset".toList = some (some .hreset) ∧
    assembleLine "# only a comment".toList = some none ∧
    assembleLine "HDIGEST , hex".toList = some (some (.hdigest none true)) ∧
    assembleLine ("HDIGEST ".toList ++ [quoteChar] ++ "abc".toList ++ [quoteChar] ++ " , raw".toList) =
      some (some (.hdigest (some [0x61, 0x62, 0x63]) false)) ∧
    assembleLine ("CBLK.D x".toList ++ [quoteChar] ++ "0aFF".toList ++ [quoteChar]) = some (some (.cblk [0x0a, 0xff] true)) ∧
    assembleLine "HDIGEST".toList = none := by decide +kernel

/-! ## Witnesses: for every statement with hypotheses, something that meets them, and its clauses at their bounds -/

/-- The padded message of 95_test_vectors.md section 3. -/
def abcBlock : HashBlock := slice 64 (fill [0x61, 0x62, 0x63] 24)

theorem witness_RotationMovesEveryBit : (31 < 32 ∧ (rotl 0x80000001 33).getLsbD ((31 + 33) % 32) = true) ∧
    (0 < 32 ∧ (rotl 0x80000001 33).getLsbD ((0 + 33) % 32) = true) := by decide

/-- The words of section 3 at the bounds of the clauses. -/
theorem witness_ExpansionFollowsRecurrence :
    (expand abcBlock).getD 0 0 = 0x61626380 ∧ (expand abcBlock).getD 15 0 = 0x18 ∧ (expand abcBlock).getD 16 0 = 0x9092e200 ∧
    (expand abcBlock).getD 67 0 = 0xb99c0545 ∧ wPrime (expand abcBlock) 0 = 0x61626380 ∧
    wPrime (expand abcBlock) 63 = 0x49e260d5 := by decide +kernel

/-- The working words of section 3 after rounds 0, 16 and 63. -/
theorem witness_CompressionRunsSixtyFourRounds :
    (hashRounds (expand abcBlock) 1 (loadWorking Config.hashIV)).a = 0xb9edc12b ∧
    (hashRounds (expand abcBlock) 17 (loadWorking Config.hashIV)).e = 0x067550f5 ∧
    (hashRounds (expand abcBlock) 64 (loadWorking Config.hashIV)).h = 0x3fb0a6ae := by decide +kernel

theorem witness_HwriteOfNothingChangesNothing : (written (List.replicate 63 0)).hash.buf.length ≤ 63 := by decide +kernel

theorem witness_FillForEveryBufferLength :
    (fill (List.replicate 55 0) 440).length = 64 ∧ (fill (List.replicate 56 0) 448).length = 128 ∧
    (fill (List.replicate 63 0) 504).length = 128 ∧ (fill [] 0).length = 64 := by decide +kernel

theorem witness_FinalizeCompressesEveryTailBlock : (written (List.replicate 63 0)).hash.buf.length ≤ 63 := by decide +kernel

theorem witness_HexEncodingOfEveryByte :
    1 < [(0x66 : Byte), 0xc7].length ∧ hexBytes [0x66, 0xc7] = [0x36, 0x36, 0x63, 0x37] := by decide

/-- 64 bytes: one whole block and an empty buffer. -/
theorem witness_HdigestOfWrittenBytes : Written (written (List.replicate 64 0x61)).hash (List.replicate 64 0x61) :=
  ⟨by decide +kernel, by decide +kernel, by decide +kernel⟩

theorem witness_StreamingEqualsOneShot : State.reset.hash = HashContext.fresh := rfl

theorem witness_KeyScheduleFollowsRecurrence :
    KeySequence Config.tables (slice 16 key).toList fun i => keyWordsOfSection6.getD i 0 := by
  refine ⟨?_, ?_⟩ <;> decide +kernel

/-- The 36 words `X[0..35]` of section 7. -/
def blockWordsOfSection7 : List Word :=
    [0x01234567, 0x89abcdef, 0xfedcba98, 0x76543210] ++
    [0x27fad345, 0xa18b4cb2, 0x11c1e22a, 0xcc13e2ee] ++
    [0xf87c5bd5, 0x33220757, 0x77f4c297, 0x7a96f2eb] ++
    [0x27dac07f, 0x42dd0f19, 0xb8a5da02, 0x907127fa] ++
    [0x8b952b83, 0xd42b7c59, 0x2ffc5831, 0xf69e6888] ++
    [0xaf2432c4, 0xed1ec85e, 0x55a3ba22, 0x124b18aa] ++
    [0x6ae7725f, 0xf4cba1f9, 0x1dcdfa10, 0x2ff60603] ++
    [0xeff24fdc, 0x6fe46b75, 0x893450ad, 0x7b938f4c] ++
    [0x536e4246, 0x86b3e94f, 0xd206965e, 0x681edf34]

theorem witness_BlockTransformFollowsRecurrence :
    BlockSequence Config.tables (fun i => (keySchedule Config.tables (slice 16 key)).toList.getD i 0) (slice 16 key).toList
      fun i => blockWordsOfSection7.getD i 0 := by
  refine ⟨?_, ?_⟩ <;> decide +kernel

theorem witness_CinitConstructsContext : key.length = 16 ∧ iv.length = 16 ∧ (iv ++ [0]).length ≠ 16 := by decide

theorem witness_CinitWithBadKeyResetsContext : (key ++ [0]).length ≠ 16 ∧ (key.drop 1).length ≠ 16 ∧ ([] : Bytes).length ≠ 16 := by
  decide

theorem witness_CblkRunsOneBlockTransform : (keyed .ecb).cipher.cfg.keyOk = true ∧ key.length = 16 := by decide

theorem witness_CblkBackAndForth : (keyed .cbc).cipher.cfg.keyOk = true ∧ iv.length = 16 := by decide

theorem witness_CencInEcbEncryptsEachBlock : (keyed .ecb).cipher.cfg.keyOk = true ∧ (keyed .ecb).cipher.cfg.mode = .ecb ∧
    ([] : Bytes).length ≤ 0xFFFFFFEF ∧ ∃ p : Bytes, p.length = 0xFFFFFFEF :=
  ⟨rfl, rfl, by decide, bytes_of_length _⟩

theorem witness_CencInCbcChainsCiphertext : (keyed .cbc).cipher.cfg.keyOk = true ∧ (keyed .cbc).cipher.cfg.mode = .cbc ∧
    (keyed .cbc).cipher.cfg.ivOk = true ∧ key.length ≤ 0xFFFFFFEF := by decide

theorem witness_CdecInEcbDecryptsEachBlock : (keyed .ecb).cipher.cfg.keyOk = true ∧ (keyed .ecb).cipher.cfg.mode = .ecb ∧
    key ≠ [] ∧ 16 ∣ key.length := by decide

theorem witness_CdecInCbcChainsCiphertext : (keyed .cbc).cipher.cfg.keyOk = true ∧ (keyed .cbc).cipher.cfg.mode = .cbc ∧
    (keyed .cbc).cipher.cfg.ivOk = true ∧ key ++ iv ≠ [] ∧ 16 ∣ (key ++ iv).length := by decide

/-- The rows `00`, `0f`, `10` and `11` of section 8.1: the clauses meet where the last byte is the length. -/
theorem witness_DepadObeysLastByteOnly :
    depad (be 15 0x303132333435363738393a3b3c3d3e ++ [0x00]) = be 16 0x303132333435363738393a3b3c3d3e00 ∧
    depad (be 15 0x303132333435363738393a3b3c3d3e ++ [0x0f]) = [0x30] ∧
    depad (be 15 0x303132333435363738393a3b3c3d3e ++ [0x10]) = [] ∧
    depad (be 15 0x303132333435363738393a3b3c3d3e ++ [0x11]) = [] := by decide +kernel

theorem witness_CdecInvertsCenc : CipherReady (keyed .cbc).cipher ∧ CipherReady (keyed .ecb).cipher ∧ key.length ≤ 0xFFFFFFEF :=
  ⟨⟨rfl, fun _ => rfl⟩, ⟨rfl, fun _ => rfl⟩, by decide⟩

/-- Section 9: block 0 of three is damaged, and exactly bit 0 of byte 3 of block 1 flips. -/
theorem witness_CbcErrorReachesTwoBlocks :
    0 < [block 0x75122bc19d89841dc4082e3247f08df2, block 0xf73ffd29e6f21fc808ff9a58f24c016d].length ∧
    (cbcDecrypt (decBlock Config.tables (keyed .cbc).cipher.rk) (keyed .cbc).cipher.iv
      [block 0x75122bc09d89841dc4082e3247f08df2, block 0xf73ffd29e6f21fc808ff9a58f24c016d]).1 =
      [block 0x4600c7d1890716da5c236e86b71c2e42, block 0x303132323435363738393a3b3c3d3e3f] := by decide +kernel

/-- Both clauses: a command that meets an error, and one that meets none. -/
theorem witness_ErrorsFollowPriority :
    errorOf State.reset (.cenc [0x78]) = some .noKey ∧ errorOf (keyed .cbc) (.cdec [0x78]) = some .invalidLength ∧
    errorOf (keyed .cbc) (.cinit [] none .ecb .text) = some .invalidKeyLength ∧ errorOf (keyed .cbc) (.cenc [0x78]) = none := by
  decide

theorem witness_StepRunsDecodedCommand :
    decode (be 9 0x010000000000000002) = .command .hreset [0x02] := by decide +kernel

theorem witness_StepRunsEncodedCommand : (Instr.cblk key true).WellFormed ∧
    (State.reset.present (encode (.cblk key true) ++ [0x01])).cmd = encode (.cblk key true) ++ [0x01] :=
  ⟨by decide, rfl⟩

theorem isPacket_hreset : IsPacket (be 8 0x0100000000000000) :=
  ⟨{ opc := 1, modifier := 0, alen := 0, rsv := 0, len := 0 }, [], rfl, by decide +kernel⟩

theorem isPacket_reserved : IsPacket (be 9 0x0f000000000000017a) :=
  ⟨{ opc := 0x0f, modifier := 0, alen := 0, rsv := 0, len := 1 }, [0x7a], rfl, by decide +kernel⟩

/-- A legal packet, an illegal one, and a byte after them. -/
theorem witness_EveryPacketIsAnsweredInOrder :
    (∀ p ∈ [be 8 0x0100000000000000, be 9 0x0f000000000000017a], IsPacket p) ∧
    (State.reset.present (be 8 0x0100000000000000 ++ be 9 0x0f000000000000017a ++ [0x02])).cmd =
      [be 8 0x0100000000000000, be 9 0x0f000000000000017a].flatten ++ [0x02] := by
  refine ⟨?_, by decide +kernel⟩
  simp only [List.mem_cons, List.not_mem_nil, or_false, forall_eq_or_imp, forall_eq]
  exact ⟨isPacket_hreset, isPacket_reserved⟩

/-- A stream that begins with a whole packet has at least eight bytes. -/
theorem eight_le_of_packet {bs : Bytes} (h : ∃ p rest, IsPacket p ∧ bs = p ++ rest) : 8 ≤ bs.length := by
  obtain ⟨p, rest, ⟨hd, payload, -, rfl⟩, rfl⟩ := h
  simp [Header.bytes, unbe32]

theorem witness_NoStepWithoutWholePacket :
    (¬ ∃ p rest, IsPacket p ∧ State.reset.cmd = p ++ rest) ∧
    ¬ ∃ p rest, IsPacket p ∧ (State.reset.present (be 7 0x01000000000000)).cmd = p ++ rest := by
  constructor <;> intro h
  · exact absurd (eight_le_of_packet h) (by decide)
  · exact absurd (eight_le_of_packet h) (by decide)

/-- A state in the middle of a message with a constructed context meets the invariant, and a packet waits there. -/
def busy : State :=
  { hash := absorb HashContext.fresh [0x61, 0x62, 0x63], cipher := (keyed .cbc).cipher, cmd := be 8 0x0100000000000000, rsp := [] }

theorem busy_inv : Inv busy where
  hash := ⟨[0x61, 0x62, 0x63], ⟨by decide +kernel, by decide +kernel, by decide +kernel⟩⟩
  cipher := ⟨fun h => absurd h (by decide), fun _ => rfl, fun h => absurd h (by decide), fun _ => ⟨slice 16 key, rfl⟩⟩
  responses := ⟨[], by simp, rfl⟩

theorem witness_StepKeepsInvariant : Inv busy ∧ (stateOf (step busy)).isSome = true :=
  ⟨busy_inv, by decide +kernel⟩

theorem witness_InvariantBoundsBuffer : Inv busy := busy_inv

theorem witness_ResetEventStartsAfresh : (Instr.cinit key none .ecb .text).WellFormed := by decide

theorem witness_HashCommandsKeepCipherContext : IsHashCommand (.hwrite [0x61]) ∧
    ∃ t, exec (.hwrite [0x61]) (keyed .cbc) = .next t := ⟨trivial, _, rfl⟩

theorem witness_CipherCommandsKeepHashContext : ¬ IsHashCommand (.cdec [0x61]) ∧
    ∃ t, exec (.cdec [0x61]) busy = .next t := ⟨id, _, rfl⟩

/-- The three clauses under which `CHAIN` stays. -/
theorem witness_OnlyCbcWritesChain :
    UsesCipher (.cenc []) ∧ (keyed .ecb).cipher.cfg.mode = .ecb ∧ errorOf (keyed .cbc) (.cdec [0x78]) ≠ none ∧
    (stateOf (exec (.cenc []) (keyed .ecb))).isSome = true ∧ (stateOf (exec (.cblk key false) (keyed .cbc))).isSome = true := by
  refine ⟨trivial, rfl, by decide, by decide +kernel, by decide +kernel⟩

theorem witness_OnlyCinitWritesConfiguration : (∀ k v m o, Instr.cblk [] false ≠ .cinit k v m o) ∧
    ∃ t, exec (.cblk [] false) (keyed .cbc) = .next t :=
  ⟨fun _ _ _ _ h => Instr.noConfusion h, _, rfl⟩

theorem witness_HashCommandsIgnoreCipherContext : IsHashCommand .hreset ∧
    ({ (keyed .cbc).cipher with iv := block 7 } : CipherContext).cfg = (keyed .cbc).cipher.cfg ∧
    ∃ t, exec .hreset (keyed .cbc) = .next t := ⟨trivial, rfl, _, rfl⟩

theorem witness_CipherCommandsIgnoreHashContext : ¬ IsHashCommand (.cblk [] false) ∧
    ∃ t, exec (.cblk [] false) (keyed .cbc) = .next t := ⟨id, _, rfl⟩

theorem witness_ChainIsNeverObserved : ∃ t, exec (.cdec []) (keyed .cbc) = .next t := ⟨_, rfl⟩

theorem witness_IvIsNotReadInEcb : UsesCipher (.cenc []) ∧ (keyed .ecb).cipher.cfg.mode = .ecb ∧
    (stateOf (exec (.cenc []) (keyed .ecb))).isSome = true := ⟨trivial, rfl, by decide +kernel⟩

theorem witness_KeysAreNotReadWithoutKey : State.reset.cipher.cfg.keyOk = false ∧
    ∃ t, exec (.cenc []) State.reset = .next t := ⟨rfl, _, rfl⟩

theorem witness_OutputFormChangesNoData : UsesCipher (.cdec key) := trivial

theorem witness_ResponseReadsBack :
    ({ status := .ok, cfg := Cfg.reset, data := key } : Response).data.length < 2 ^ 32 := by decide

theorem witness_DecodeInvertsEncode : (Instr.cinit [0x61] (some []) .ecb .text).WellFormed := by decide

theorem witness_EncodeInvertsDecode :
    decode (be 9 0x030200000000000011) = .command (.hdigest none true) [0x11] := by decide +kernel

/-- A legal header and an illegal one, each with as many payload bytes as it says. -/
theorem witness_LegalHeadersAreExactlyTheTable :
    LegalHeader { opc := 0x10, modifier := 4, alen := 1, rsv := 0, len := 1 } ∧
    ¬ LegalHeader { opc := 0x10, modifier := 4, alen := 2, rsv := 0, len := 1 } ∧
    [(0x61 : Byte)].length = (1 : Word).toNat := by
  refine ⟨⟨rfl, .inr (.inr (.inr (.inl ⟨rfl, ?_, by decide, by decide⟩)))⟩, ?_, rfl⟩
  · intro i hi
    rcases Nat.lt_or_ge i 8 with h | h
    · interval_cases i <;> decide
    · exact BitVec.getLsbD_of_ge _ _ h
  · rintro ⟨-, h | h | h | ⟨-, -, h, -⟩ | h | h | h⟩
    all_goals first | exact absurd h (by decide) | exact absurd h.1 (by decide)

theorem not_legal_reserved : ¬ LegalHeader { opc := 0x0f, modifier := 0, alen := 0, rsv := 0, len := 1 } := by
  rintro ⟨-, h | h | h | h | h | h | h⟩ <;> exact absurd h.1 (by decide)

theorem witness_IllegalCommandChangesNothing : [(0x7a : Byte)].length = (1 : Word).toNat ∧
    ¬ LegalHeader { opc := 0x0f, modifier := 0, alen := 0, rsv := 0, len := 1 } ∧
    ((keyed .cbc).present (be 9 0x0f000000000000017a)).cmd =
      ({ opc := 0x0f, modifier := 0, alen := 0, rsv := 0, len := 1 } : Header).bytes ++ [0x7a] ++ [] :=
  ⟨rfl, not_legal_reserved, by decide +kernel⟩

end Sys2Proof.Tests
end

section
/-! The reset state, value by value (10_state.md R36). -/

namespace Sys2Proof.Machine

/-- Every cell of a constant register file holds the constant, whatever default stands for a missing cell. -/
theorem replicate_toList_getD {α : Type} {n i : Nat} (h : i < n) (x d : α) :
    (Vector.replicate n x).toList.getD i d = x := by
  rw [Vector.toList_replicate, List.getD_replicate _ h]

/-- `CFG` reads 0x00 after reset: both selectors' first choices and both flags clear (R26, R36). -/
@[simp] theorem Cfg.byte_reset : Cfg.reset.byte = 0x00 := by decide

/-- After reset every round key is 0 (R27, R36). -/
theorem CipherContext.reset_rk_getD {i : Nat} (h : i < 32) (d : Word) : CipherContext.reset.rk.toList.getD i d = 0 :=
  replicate_toList_getD h 0 d

/-- After reset every byte of `IV` is 0 (R28, R36). -/
theorem CipherContext.reset_iv_getD {i : Nat} (h : i < 16) (d : Byte) : CipherContext.reset.iv.toList.getD i d = 0 :=
  replicate_toList_getD h 0 d

/-- After reset every byte of `CHAIN` is 0 (R29, R36). -/
theorem CipherContext.reset_chain_getD {i : Nat} (h : i < 16) (d : Byte) : CipherContext.reset.chain.toList.getD i d = 0 :=
  replicate_toList_getD h 0 d

/-- Settles O41: the hash context and the fields of `CFG` are the reset values by definition; the `CFG` byte and the cells of
`RK`, `IV` and `CHAIN` are read through their lemmas. -/
theorem resetValues : Obligations.ResetValues := by
  unfold Obligations.ResetValues
  have hbyte : State.reset.cipher.cfg.byte = 0x00 := Cfg.byte_reset
  have hrk : ∀ i, i < 32 → State.reset.cipher.rk.toList.getD i 1 = 0 := fun _ hi => CipherContext.reset_rk_getD hi 1
  have hblocks : ∀ i, i < 16 →
      State.reset.cipher.iv.toList.getD i 1 = 0 ∧ State.reset.cipher.chain.toList.getD i 1 = 0 :=
    fun _ hi => ⟨CipherContext.reset_iv_getD hi 1, CipherContext.reset_chain_getD hi 1⟩
  exact ⟨rfl, rfl, rfl, hbyte, rfl, rfl, rfl, rfl, hrk, hblocks⟩

end Sys2Proof.Machine
end

section
/-! The command stream and the response stream: one packet in, one response out (20_memory.md R53). -/

namespace Sys2Proof.Machine

open Sys2Proof.Safety

/-- A run goes on from the state that a successful first step gives. -/
theorem core_run_succ_of_next (M : Host.Core) {s t : M.State} (h : M.step s = .next t) (k : Nat) :
    M.run (k + 1) s = M.run k t := by
  rw [Host.Core.run, h]

/-- The outcome `o` answers from `s` with `r`: it is a next state, which has the packet of `r` after the responses of `s` and
the command bytes that wait in `s`. -/
def AnswersWith (s : State) (r : Response) (o : Host.Outcome State Fault Refusal) : Prop :=
  ∃ t : State, o = .next t ∧ t.cmd = s.cmd ∧ t.rsp = s.rsp ++ r.bytes

/-- An outcome that emits one response, after writes that leave both streams alone, answers with it. -/
theorem exists_answersWith_of_emit {s u : State} {r : Response} {o : Host.Outcome State Fault Refusal}
    (ho : o = .next (u.emit r)) (hcmd : u.cmd = s.cmd) (hrsp : u.rsp = s.rsp) : ∃ r, AnswersWith s r o :=
  ⟨r, u.emit r, ho, by rw [State.emit_cmd, hcmd], by rw [State.emit_rsp, hrsp]⟩

/-- Every command, in every state, answers with one response (R53, R72). -/
theorem exec_answers (i : Instr) (s : State) : ∃ r, AnswersWith s r (exec i s) := by
  cases i with
  | hreset => exact exists_answersWith_of_emit (exec_hreset s) rfl rfl
  | hwrite data => exact exists_answersWith_of_emit (exec_hwrite data s) rfl rfl
  | hdigest message hex => exact exists_answersWith_of_emit (exec_hdigest message hex s) rfl rfl
  | cinit key iv mode outform =>
    by_cases hk : key.length = 16
    · exact exists_answersWith_of_emit (exec_cinit_key key iv mode outform s hk) rfl rfl
    · exact exists_answersWith_of_emit (exec_cinit_badKey key iv mode outform s hk) rfl rfl
  | cenc p =>
    cases he : errorOf s (.cenc p) with
    | some e => exact exists_answersWith_of_emit (exec_error _ s e he trivial) rfl rfl
    | none =>
      obtain ⟨hready, hlen⟩ := (errorOf_cenc_none p s).mp he
      exact exists_answersWith_of_emit (exec_cenc_ok p s hready hlen) rfl rfl
  | cdec c =>
    cases he : errorOf s (.cdec c) with
    | some e => exact exists_answersWith_of_emit (exec_error _ s e he trivial) rfl rfl
    | none =>
      obtain ⟨hready, hne, hdvd⟩ := (errorOf_cdec_none c s).mp he
      exact exists_answersWith_of_emit (exec_cdec_ok c s hready hne hdvd) rfl rfl
  | cblk b dec =>
    cases he : errorOf s (.cblk b dec) with
    | some e => exact exists_answersWith_of_emit (exec_error _ s e he trivial) rfl rfl
    | none =>
      obtain ⟨hkey, hlen⟩ := (errorOf_cblk_none b dec s).mp he
      exact exists_answersWith_of_emit (exec_cblk_ok b dec s hkey hlen) rfl rfl

/-- A step with a whole packet in front: the packet is consumed, and its command runs or, when no command can be cut from it,
`ILLEGAL_COMMAND` is raised (R62, R67). -/
theorem step_packet {s : State} {h : Header} {payload rest : Bytes} (hl : payload.length = h.len.toNat)
    (hs : s.cmd = h.bytes ++ payload ++ rest) :
    (∃ i, decodePacket h payload = .ok i ∧ step s = exec i (s.setCmd rest)) ∨
      ∃ why, decodePacket h payload = .error why ∧ step s = raiseIllegalCommand (s.setCmd rest) := by
  have hd := decode_packet h payload rest hl
  rw [← hs] at hd
  cases hp : decodePacket h payload with
  | ok i => rw [hp] at hd; exact .inl ⟨i, rfl, by simp only [step, hd]⟩
  | error why => rw [hp] at hd; exact .inr ⟨why, rfl, by simp only [step, hd]⟩

/-- A step with a whole packet in front, legal or not, consumes it and answers with one response (R53). -/
theorem step_answers {s : State} {p rest : Bytes} (hp : IsPacket p) (hs : s.cmd = p ++ rest) :
    ∃ r, AnswersWith (s.setCmd rest) r (step s) := by
  obtain ⟨h, payload, hl, rfl⟩ := hp
  obtain ⟨i, -, hstep⟩ | ⟨why, -, hstep⟩ := step_packet hl hs
  · rw [hstep]
    exact exec_answers i _
  · rw [hstep]
    exact exists_answersWith_of_emit (raise_eq .illegalCommand _) rfl rfl

/-- Settles O35, by induction on the packets: the first step answers the first packet, and the run goes on from there with the
others. -/
theorem everyPacketIsAnsweredInOrder : Obligations.EveryPacketIsAnsweredInOrder := by
  unfold Obligations.EveryPacketIsAnsweredInOrder
  intro ps tail
  induction ps with
  | nil =>
    intro s _ hs
    refine ⟨[], rfl, fun k hk => ?_⟩
    obtain rfl : k = 0 := Nat.le_zero.mp hk
    exact ⟨s, rfl, hs, by simp⟩
  | cons p ps ih =>
    intro s hps hs
    obtain ⟨hp, hps⟩ := List.forall_mem_cons.mp hps
    obtain ⟨r, t, hstep, hcmd, hrsp⟩ := step_answers hp (by rw [hs, List.flatten_cons, List.append_assoc])
    obtain ⟨rs, hlen, hrun⟩ := ih t hps hcmd
    refine ⟨r :: rs, by simp [hlen], fun k hk => ?_⟩
    cases k with
    | zero => exact ⟨s, rfl, hs, by simp⟩
    | succ k =>
      obtain ⟨u, hu, hucmd, hursp⟩ := hrun k (Nat.le_of_succ_le_succ hk)
      refine ⟨u, ?_, hucmd, ?_⟩
      · rw [core_run_succ_of_next Sys2Proof.core hstep, hu]
      · rw [hursp, hrsp, State.setCmd_rsp, List.take_succ_cons, List.flatMap_cons, List.append_assoc]

end Sys2Proof.Machine
end

section
/-! Which headers are legal, and the illegal command (30_encoding.md R62, R66, R67). -/

namespace Sys2Proof.Machine

open Sys2Proof.Safety

/-- The number of `MOD` bits an opcode uses, counted from bit 0 (R64). -/
def modWidth : Opcode → Nat
  | .hreset => 0
  | .hwrite => 0
  | .hdigest => 2
  | .cinit => 3
  | .cenc => 0
  | .cdec => 0
  | .cblk => 1

/-- The `MOD` bits an opcode uses are the lowest ones (R64). -/
theorem modBits_eq_lowMask (op : Opcode) : op.modBits = BitVec.ofNat 8 (2 ^ modWidth op - 1) := by
  cases op <;> rfl

/-- The low mask of `n` bits in a byte, bit by bit. -/
theorem getLsbD_lowMask (n i : Nat) : (BitVec.ofNat 8 (2 ^ n - 1)).getLsbD i = decide (i < 8 ∧ i < n) := by
  rw [BitVec.getLsbD_ofNat, Nat.testBit_two_pow_sub_one, Bool.decide_and]

/-- A byte has no bit outside a mask of the low `n` bits exactly when every bit from `n` on is 0. -/
theorem and_not_lowMask_eq_zero (b : Byte) (n : Nat) :
    b &&& ~~~BitVec.ofNat 8 (2 ^ n - 1) = 0 ↔ ∀ i, n ≤ i → b.getLsbD i = false := by
  constructor
  · intro h i hi
    by_cases h8 : i < 8
    · have hbit : (b &&& ~~~BitVec.ofNat 8 (2 ^ n - 1)).getLsbD i = false := by rw [h]; exact BitVec.getLsbD_zero
      have hmask : (BitVec.ofNat 8 (2 ^ n - 1)).getLsbD i = false := by
        rw [getLsbD_lowMask]
        exact decide_eq_false fun hlt => absurd hlt.2 (Nat.not_lt.mpr hi)
      simpa only [BitVec.getLsbD_and, BitVec.getLsbD_not, hmask, h8, decide_true, Bool.not_false, Bool.and_true] using hbit
    · exact BitVec.getLsbD_of_ge b i (Nat.le_of_not_lt h8)
  · intro h
    refine BitVec.eq_of_getLsbD_eq fun i h8 => ?_
    rw [BitVec.getLsbD_and, BitVec.getLsbD_not, getLsbD_lowMask]
    by_cases hi : i < n
    · simp [h8, hi]
    · simp [h i (Nat.le_of_not_lt hi)]

/-- No reserved `MOD` bit is set exactly when every bit above those the opcode uses is 0 (R66). -/
theorem and_not_modBits_eq_zero (op : Opcode) (b : Byte) :
    b &&& ~~~op.modBits = 0 ↔ ∀ i, modWidth op ≤ i → b.getLsbD i = false := by
  rw [modBits_eq_lowMask, and_not_lowMask_eq_zero]

/-- What the `LEN` column of the table of R66 asks of a header with the opcode, and for `CINIT` its `ALEN` column too. -/
def LengthsFit (h : Header) : Opcode → Prop
  | .hreset => h.len = 0
  | .hwrite => True
  | .hdigest => h.modifier.getLsbD 0 = false → h.len = 0
  | .cinit => h.alen.toNat ≤ h.len.toNat ∧ (h.modifier.getLsbD 2 = false → h.len.toNat = h.alen.toNat)
  | .cenc => True
  | .cdec => True
  | .cblk => True

/-- A conditional gives a command when the branch it takes gives one. -/
theorem exists_ite_eq_ok {c : Prop} [Decidable c] (x y : Except Illegal Instr) :
    (∃ i, (if c then x else y) = .ok i) ↔ (c ∧ ∃ i, x = .ok i) ∨ (¬ c ∧ ∃ i, y = .ok i) := by
  by_cases hc : c <;> simp [hc]

/-- The operands can be cut from any payload exactly when the header's lengths fit the opcode (R66). -/
theorem exists_operands_eq_ok (op : Opcode) (h : Header) (payload : Bytes) :
    (∃ i, operands op h payload = .ok i) ↔ LengthsFit h op := by
  cases op with
  | hwrite | cenc | cdec | cblk => exact iff_of_true ⟨_, rfl⟩ trivial
  | hreset =>
    simp only [operands, LengthsFit, exists_ite_eq_ok]
    simp
  | hdigest =>
    simp only [operands, LengthsFit, exists_ite_eq_ok]
    cases h.modifier.getLsbD 0 <;> simp
  | cinit =>
    simp only [operands, LengthsFit, exists_ite_eq_ok]
    cases h.modifier.getLsbD 2 <;> simp

/-- There are seven opcodes (R63). -/
theorem exists_opcode_iff {p : Opcode → Prop} : (∃ op, p op) ↔
    p .hreset ∨ p .hwrite ∨ p .hdigest ∨ p .cinit ∨ p .cenc ∨ p .cdec ∨ p .cblk := by
  constructor
  · rintro ⟨op, h⟩
    cases op <;> simp [h]
  · rintro (h | h | h | h | h | h | h) <;> exact ⟨_, h⟩

/-- The table of R66, read by opcode rather than by row. -/
theorem legalHeader_iff_opcode (h : Header) : LegalHeader h ↔
    h.rsv = 0 ∧ ∃ op : Opcode, h.opc = op.code ∧ h.modifier &&& ~~~op.modBits = 0 ∧ (op = .cinit ∨ h.alen = 0) ∧
      LengthsFit h op := by
  have hzero : h.modifier = 0 ↔ ∀ i, 0 ≤ i → h.modifier.getLsbD i = false := by
    rw [← and_not_lowMask_eq_zero, show ~~~BitVec.ofNat 8 (2 ^ 0 - 1) = BitVec.allOnes 8 from rfl, BitVec.and_allOnes]
  simp only [exists_opcode_iff, LegalHeader, LengthsFit, Opcode.code, and_not_modBits_eq_zero, modWidth, ← hzero,
    reduceCtorEq, false_or, true_or, true_and, and_true]

/-- A command can be cut from a packet exactly when its header is legal (R66). -/
theorem exists_decodePacket_eq_ok (h : Header) (payload : Bytes) :
    (∃ i, decodePacket h payload = .ok i) ↔ LegalHeader h := by
  simp only [decodePacket_eq_ok, legalHeader_iff_opcode, ← exists_operands_eq_ok _ h payload]
  constructor
  · rintro ⟨i, hrsv, op, hopc, hmod, halen, hok⟩
    exact ⟨hrsv, op, hopc, hmod, halen, i, hok⟩
  · rintro ⟨hrsv, op, hopc, hmod, halen, i, hok⟩
    exact ⟨i, hrsv, op, hopc, hmod, halen, hok⟩

/-- Settles O56: the decoder skips the payload in both cases, and a command can be cut from it exactly under a legal header. -/
theorem legalHeadersAreExactlyTheTable : Obligations.LegalHeadersAreExactlyTheTable := by
  unfold Obligations.LegalHeadersAreExactlyTheTable
  intro h payload rest hl
  rw [decode_packet h payload rest hl, ← exists_decodePacket_eq_ok h payload]
  cases hd : decodePacket h payload with
  | ok i => exact ⟨fun _ => ⟨i, rfl⟩, fun hn => absurd ⟨i, rfl⟩ hn⟩
  | error why => exact ⟨fun ⟨_, hok⟩ => (nomatch hok), fun _ => ⟨why, rfl⟩⟩

/-- A response without data is the status code, `CFG` and six zero bytes (R72). -/
theorem Response.bytes_of_noData (st : Status) (c : Cfg) :
    ({ status := st, cfg := c, data := [] } : Response).bytes = [st.code, c.byte, 0, 0, 0, 0, 0, 0] := by
  simp [Response.bytes, unbe32]

/-- Settles O57: no command can be cut from the packet, so the step consumes it and raises `ILLEGAL_COMMAND`, which writes
nothing but the response. -/
theorem illegalCommandChangesNothing : Obligations.IllegalCommandChangesNothing := by
  unfold Obligations.IllegalCommandChangesNothing
  intro s h payload rest hl hillegal hs
  obtain ⟨i, hok, -⟩ | ⟨why, -, hstep⟩ := step_packet hl hs
  · exact absurd ((exists_decodePacket_eq_ok h payload).mp ⟨i, hok⟩) hillegal
  · rw [hstep, raiseIllegalCommand, raise_eq, State.emit, Response.bytes_of_noData]
    rfl

end Sys2Proof.Machine
end

section
/-! The assembler on the options of `CINIT` and the qualifier of `HDIGEST` (30_encoding.md R76, R77). -/

namespace Sys2Proof.Machine

/-- The tokens of the option `iv=`, none where it is omitted (R76). -/
def ivTokens : Option Bytes → List Token
  | none => []
  | some b => [.comma, .word "iv".toList, .equals, .bytes b]

/-- The tokens of the option `<name>=`, none where it is omitted (R76). -/
def optionTokens (name : List Char) : Option (List Char) → List Token
  | none => []
  | some v => [.comma, .word name, .equals, .word v]

/-- `iv=` is read as it is written, where no other `iv=` follows. -/
theorem takeIv_ivTokens (iv : Option Bytes) {ts : List Token} (hts : takeIv ts = (none, ts)) :
    takeIv (ivTokens iv ++ ts) = (iv, ts) := by
  cases iv with
  | none => exact hts
  | some b => simp only [ivTokens, List.cons_append, List.nil_append, takeIv, if_true]

/-- An option is read as it is written, where the same option does not follow. -/
theorem takeOption_optionTokens (name : List Char) (v : Option (List Char)) {ts : List Token}
    (hts : takeOption name ts = (none, ts)) : takeOption name (optionTokens name v ++ ts) = (v, ts) := by
  cases v with
  | none => exact hts
  | some w => exact if_pos rfl

/-- A word option is not read as `iv=`. -/
theorem takeIv_optionTokens (name : List Char) (v : Option (List Char)) {ts : List Token}
    (hts : takeIv ts = (none, ts)) : takeIv (optionTokens name v ++ ts) = (none, optionTokens name v ++ ts) := by
  cases v with
  | none => exact hts
  | some w => rfl

/-- An option of another name is left where it stands. -/
theorem takeOption_optionTokens_of_ne {name other : List Char} (hne : other ≠ name) (v : Option (List Char)) :
    takeOption name (optionTokens other v) = (none, optionTokens other v) := by
  cases v with
  | none => rfl
  | some w => exact if_neg hne

/-- A `CINIT` with its options in the order of R76, each written or omitted: the IV as it is written, and what the mode and the
output form, or their omission, select (R77). -/
theorem asmCinit_options (key : Bytes) (iv : Option Bytes) (mode out : Option (List Char)) :
    asmCinit key (ivTokens iv ++ (optionTokens "mode".toList mode ++ optionTokens "out".toList out)) =
      (asmMode mode).bind fun m => (asmOutForm out).map fun o => .cinit key iv m o := by
  have hout : takeOption "out".toList (optionTokens "out".toList out) = (out, []) := by
    simpa using takeOption_optionTokens "out".toList out (ts := []) rfl
  have hmode := takeOption_optionTokens "mode".toList mode
    (takeOption_optionTokens_of_ne (by decide : "out".toList ≠ "mode".toList) out)
  have hrest : takeIv (optionTokens "out".toList out) = (none, optionTokens "out".toList out) := by
    simpa using takeIv_optionTokens "out".toList out (ts := []) rfl
  have hiv := takeIv_ivTokens iv (takeIv_optionTokens "mode".toList mode hrest)
  simp only [asmCinit, hiv, hmode, hout]
  cases asmMode mode <;> cases asmOutForm out <;> rfl

/-- The mnemonic `CINIT` with the operand `key=` and further options is the `CINIT` of that key and those options (R76). -/
theorem asmCommand_cinit (key : Bytes) (opts : List Token) :
    asmCommand "CINIT".toList (.word "key".toList :: .equals :: .bytes key :: opts) = asmCinit key opts := rfl

/-- Settles O59: every `CINIT` line is one with each option written or omitted, and what is omitted takes its default. -/
theorem assemblerDefaults : Obligations.AssemblerDefaults := by
  unfold Obligations.AssemblerDefaults
  have hcinit (key : Bytes) (iv : Option Bytes) (mode out : Option (List Char)) :=
    (asmCommand_cinit key _).trans (asmCinit_options key iv mode out)
  refine ⟨fun key b => ?_, fun _ => rfl, rfl⟩
  exact ⟨hcinit key none none none, hcinit key (some b) none none, hcinit key none (some "ecb".toList) none,
    hcinit key none none (some "text".toList), hcinit key (some b) (some "ecb".toList) none,
    hcinit key (some b) none (some "text".toList), hcinit key none (some "ecb".toList) (some "text".toList)⟩

end Sys2Proof.Machine
end

section
/-! The message expansion and the compression, round by round (40_hash.md R84 to R88). -/

namespace Sys2Proof.Machine

open Sys2Proof.Safety

/-- The first 16 words of the expansion are the block's big-endian words (R84). -/
theorem expand_getD_of_lt (b : HashBlock) (k : Nat) (hk : k < 16) :
    (expand b).getD k 0 = be32 (b.toList.getD (4 * k) 0) (b.toList.getD (4 * k + 1) 0) (b.toList.getD (4 * k + 2) 0)
      (b.toList.getD (4 * k + 3) 0) := by
  have hb : b.toList.length = 64 := b.length_toList
  rw [expand, extendWords_getD_of_lt _ _ _ (by rw [words_length]; omega), words_getD _ _ (by omega)]

/-- The words 16 to 67 of the expansion satisfy the recurrence of R84. -/
theorem expand_getD_of_ge (b : HashBlock) (j : Nat) (h0 : 16 ≤ j) (h1 : j < 68) :
    (expand b).getD j 0 =
      p1 ((expand b).getD (j - 16) 0 ^^^ (expand b).getD (j - 9) 0 ^^^ rotl ((expand b).getD (j - 3) 0) 15) ^^^
        rotl ((expand b).getD (j - 13) 0) 7 ^^^ (expand b).getD (j - 6) 0 := by
  have hw : (words b.toList).length = 16 := by rw [words_length, b.length_toList]
  have hnext : (expand b).getD j 0 = nextWord ((expand b).take j) :=
    extendWords_getD 52 (words b.toList) j (by omega) (by omega)
  rw [hnext, nextWord_take _ _ h0 (by rw [expand_length]; omega)]

/-- Settles O2: the words already in the block stay, and every further word is `nextWord` of the words before it. -/
theorem expansionFollowsRecurrence : Obligations.ExpansionFollowsRecurrence := by
  unfold Obligations.ExpansionFollowsRecurrence
  exact fun b => ⟨expand_length b, expand_getD_of_lt b, expand_getD_of_ge b, fun _ _ => rfl⟩

/-- A round of the model is the round of R87. -/
theorem roundRelation_hashRound (j : Nat) (w w' : Word) (r : Working) :
    RoundRelation j w w' r (hashRound j w w' r) :=
  ⟨rfl, rfl, rfl, rfl, rfl, rfl, rfl, rfl⟩

/-- The feed-forward, register by register (R88). -/
theorem feedForward_toList (v : Digest8) (r : Working) :
    (feedForward v r).toList =
      [v[0] ^^^ r.a, v[1] ^^^ r.b, v[2] ^^^ r.c, v[3] ^^^ r.d, v[4] ^^^ r.e, v[5] ^^^ r.f, v[6] ^^^ r.g, v[7] ^^^ r.h] := rfl

/-- Settles O3: the working words after `n` rounds are those of `hashRounds`. -/
theorem compressionRunsSixtyFourRounds : Obligations.CompressionRunsSixtyFourRounds := by
  unfold Obligations.CompressionRunsSixtyFourRounds
  intro v b
  refine ⟨fun n => hashRounds (expand b) n (loadWorking v), hashRounds_zero _ _, fun j _ => ?_, feedForward_toList v _⟩
  beta_reduce
  rw [hashRounds_succ]
  exact roundRelation_hashRound j _ _ _

end Sys2Proof.Machine
end

section
/-! Padding, finalisation and the hexadecimal form (40_hash.md R90 to R93). -/

namespace Sys2Proof.Machine

open Sys2Proof.Safety

/-- The zero fill has 55 - b bytes where the tail is one block, and 119 - b where it is two (R90). -/
theorem zeroFill_eq_ite (b : Nat) (hb : b ≤ 63) : zeroFill b = if b ≤ 55 then 55 - b else 119 - b := by
  split
  · exact zeroFill_of_le _ ‹_›
  · exact zeroFill_of_gt _ (by omega) (by omega)

/-- The padded tail is one block for at most 55 pending bytes, and two for 56 to 63 (R90). -/
theorem fill_length_eq_ite (buf : Bytes) (n : BitVec 64) (hb : buf.length ≤ 63) :
    (fill buf n).length = if buf.length ≤ 55 then 64 else 128 := by
  rw [fill_length, zeroFill_eq_ite _ hb]
  split <;> omega

/-- Settles O8: `Fill` with its zero fill computed, and its length. -/
theorem fillForEveryBufferLength : Obligations.FillForEveryBufferLength := by
  unfold Obligations.FillForEveryBufferLength
  intro buf n hb
  refine ⟨?_, fill_length_eq_ite buf n hb⟩
  rw [fill, zeroFill_eq_ite _ hb]
  rfl

/-- The fold over at least one whole block compresses the first one first. -/
theorem foldCompress_of_le (v : Digest8) (m : Bytes) (h : 64 ≤ m.length) :
    foldCompress v m = foldCompress (compress v (slice 64 m)) (m.drop 64) := by
  rw [foldCompress, wholeBlocks_cons m h, List.foldl_cons, foldCompress]

/-- The fold over exactly one block is one compression. -/
theorem foldCompress_of_length_eq (v : Digest8) (m : Bytes) (h : m.length = 64) :
    foldCompress v m = compress v (slice 64 m) := by
  rw [foldCompress_of_le v m (by omega), foldCompress_short _ _ (by rw [List.length_drop]; omega)]

/-- Settles O9: the padded tail is one block or two, and `Finalize` compresses as many. -/
theorem finalizeCompressesEveryTailBlock : Obligations.FinalizeCompressesEveryTailBlock := by
  unfold Obligations.FinalizeCompressesEveryTailBlock
  intro h hb
  have hlen := fill_length_eq_ite h.buf h.nbits hb
  simp only [finalize]
  split at hlen
  · rw [if_neg (by omega), foldCompress_of_length_eq _ _ hlen]
  · rw [if_pos hlen, foldCompress_of_le _ _ (by omega), foldCompress_of_length_eq _ _ (by rw [List.length_drop]; omega)]

theorem hexBytes_cons (b : Byte) (d : Bytes) :
    hexBytes (b :: d) = hexChar (b.extractLsb' 4 4) :: hexChar (b.extractLsb' 0 4) :: hexBytes d := rfl

/-- The characters at the places 2i and 2i + 1 are those of the two nibbles of byte i (R93). -/
theorem hexBytes_getD (d : Bytes) (i : Nat) (hi : i < d.length) :
    (hexBytes d).getD (2 * i) 0 = hexChar ((d.getD i 0).extractLsb' 4 4) ∧
      (hexBytes d).getD (2 * i + 1) 0 = hexChar ((d.getD i 0).extractLsb' 0 4) := by
  induction d generalizing i with
  | nil => exact absurd hi (Nat.not_lt_zero i)
  | cons b d ih =>
    cases i with
    | zero => exact ⟨rfl, rfl⟩
    | succ i => exact ih i (Nat.lt_of_succ_lt_succ hi)

theorem toNat_highNibble (b : Byte) : (b.extractLsb' 4 4).toNat = b.toNat / 16 := by
  rw [BitVec.extractLsb'_toNat, Nat.shiftRight_eq_div_pow]
  have := b.isLt
  omega

theorem toNat_lowNibble (b : Byte) : (b.extractLsb' 0 4).toNat = b.toNat % 16 := by
  rw [BitVec.extractLsb'_toNat, Nat.shiftRight_zero]

/-- Settles O10: the characters are those of the nibbles, whose values are the quotient and the remainder by 16. -/
theorem hexEncodingOfEveryByte : Obligations.HexEncodingOfEveryByte := by
  unfold Obligations.HexEncodingOfEveryByte
  intro d i hi
  obtain ⟨hhigh, hlow⟩ := hexBytes_getD d i hi
  rw [hhigh, hlow, ← toNat_highNibble, ← toNat_lowNibble]
  exact ⟨hexBytes_length d, rfl, rfl⟩

end Sys2Proof.Machine
end

section
/-! The hash commands: their packets, and the next state each gives (40_hash.md R94 to R96). -/

namespace Sys2Proof.Machine

open Sys2Proof.Safety

/-- Settles O4: the fresh context is written and the response emitted. -/
theorem hresetRestoresFreshContext : Obligations.HresetRestoresFreshContext := by
  unfold Obligations.HresetRestoresFreshContext
  exact ⟨rfl, exec_hreset⟩

/-- Settles O5: absorption is the fold over the whole blocks of the pending bytes followed by the data. -/
theorem hwriteAbsorbsInStreamOrder : Obligations.HwriteAbsorbsInStreamOrder := by
  unfold Obligations.HwriteAbsorbsInStreamOrder
  refine fun data => ⟨rfl, fun s => ?_⟩
  rw [exec_hwrite, absorb_eq, List.length_append]
  rfl

/-- The modifier bits of an `HDIGEST` as a number: `HEX` is worth 2 and `MSG` is worth 1 (R64). -/
theorem modifierByte_hdigest (hex msg : Bool) :
    modifierByte false hex msg = (if hex then 2 else 0) + (if msg then 1 else 0) := by
  cases hex <;> cases msg <;> rfl

/-- The registers of a digest, one by one. -/
theorem toList_digest8 (v : Digest8) : v.toList = [v[0], v[1], v[2], v[3], v[4], v[5], v[6], v[7]] := by
  apply List.ext_getElem
  · rw [v.length_toList]; rfl
  · intro i h1 h2
    rw [v.length_toList] at h1
    interval_cases i <;> rfl

/-- The digest, register by register (R92). -/
theorem digestBytes_eq (v : Digest8) : digestBytes v =
    unbe32 v[0] ++ unbe32 v[1] ++ unbe32 v[2] ++ unbe32 v[3] ++ unbe32 v[4] ++ unbe32 v[5] ++ unbe32 v[6] ++ unbe32 v[7] := by
  simp only [digestBytes, toList_digest8 v, bytesOf_cons, bytesOf_nil, List.append_nil, List.append_assoc]

/-- The packet of an `HDIGEST` (R61, R64). -/
theorem encode_hdigest (message : Option Bytes) (hex : Bool) : encode (.hdigest message hex) =
    [0x03, modifierByte false hex message.isSome, 0, 0] ++ unbe32 (BitVec.ofNat 32 (message.getD []).length) ++
      message.getD [] := rfl

/-- Settles O11: the packet by its modifier bits; the answer by the registers of the finalised context, a supplied message
being absorbed from the fresh one. -/
theorem hdigestFinalizesAndResets : Obligations.HdigestFinalizesAndResets := by
  unfold Obligations.HdigestFinalizesAndResets
  refine fun message hex => ⟨by rw [encode_hdigest, modifierByte_hdigest], fun s => ?_⟩
  rw [exec_hdigest, digestData, digestBytes_eq]
  cases message with
  | none => rfl
  | some m => rfl

end Sys2Proof.Machine
end

section
/-! The byte substitution, the key schedule and the block transform by their recurrences (41_keyschedule_block.md R110 to R118). -/

namespace Sys2Proof.Machine

open Sys2Proof.Safety

/-- Settles O15: `tau` packs the replaced bytes, and unpacking gives them back. -/
theorem tauSubstitutesEachByte : Obligations.TauSubstitutesEachByte := by
  unfold Obligations.TauSubstitutesEachByte
  exact fun T x => unbe32_be32 _ _ _ _

/-- An element of a vector, read from its list with a default. -/
theorem toList_getD_of_lt {α : Type} {n : Nat} (v : Vector α n) (d : α) (i : Nat) (hi : i < n) :
    v.toList.getD i d = v[i] := by
  rw [List.getD_eq_getElem _ _ (by rwa [v.length_toList]), Vector.getElem_toList]

/-- The big-endian word `k` of a block's bytes (R42). -/
def wordAt (bs : Bytes) (k : Nat) : Word :=
  be32 (bs.getD (4 * k) 0) (bs.getD (4 * k + 1) 0) (bs.getD (4 * k + 2) 0) (bs.getD (4 * k + 3) 0)

/-- The working words a block starts with are its big-endian words (R114, R120). -/
theorem loadQuad_eq_wordAt (b : Block) :
    loadQuad b = { x0 := wordAt b.toList 0, x1 := wordAt b.toList 1, x2 := wordAt b.toList 2, x3 := wordAt b.toList 3 } := by
  simp only [loadQuad, wordAt, toList_getD_of_lt b 0, Nat.reduceMul, Nat.reduceAdd, Nat.reduceLT]

/-- The words the key recurrence starts from are the first four of its sequence (R114). -/
theorem keyQuad_eq_of_keySequence {T : Tables} {key : Block} {K : Nat → Word} (hK : KeySequence T key.toList K) :
    keyQuad T key = { x0 := K 0, x1 := K 1, x2 := K 2, x3 := K 3 } := by
  have hstart : ∀ k (hk : k < 4), K k = wordAt key.toList k ^^^ T.fk[k] := fun k hk => by
    rw [hK.1 k hk, toList_getD_of_lt T.fk 0 k hk, wordAt]
  simp only [keyQuad, loadQuad_eq_wordAt, hstart, Nat.reduceLT]

/-- Settles O16: the words the schedule produces are those of any sequence that satisfies the recurrence. -/
theorem keyScheduleFollowsRecurrence : Obligations.KeyScheduleFollowsRecurrence := by
  unfold Obligations.KeyScheduleFollowsRecurrence
  intro T key K hK i hi
  have hck : T.ck.toList.length = 32 := T.ck.length_toList
  rw [keySchedule_getD T key i hi]
  refine keyWords_getD T _ _ K (keyQuad_eq_of_keySequence hK) (fun j hj => ?_) i (by rwa [hck])
  exact hK.2 j (by rwa [hck] at hj)

/-- The output block as bytes: the last four working words, the last one first (R43, R117). -/
theorem storeReversed_toList (q : Quad) :
    (storeReversed q).toList = unbe32 q.x3 ++ unbe32 q.x2 ++ unbe32 q.x1 ++ unbe32 q.x0 := by
  rw [storeReversed, slice_toList _ _ (by simp)]
  rfl

/-- The block transform over round keys `ks 0, ..., ks 31`, read off any sequence that satisfies the recurrence of R117. -/
theorem blockTransform_toList_of_blockSequence {T : Tables} {rk : RoundKeys} {b : Block} {ks X : Nat → Word}
    (hks : ∀ i, i < 32 → rk.toList.getD i 0 = ks i) (hX : BlockSequence T ks b.toList X) :
    (blockTransform T rk b).toList = unbe32 (X 35) ++ unbe32 (X 34) ++ unbe32 (X 33) ++ unbe32 (X 32) := by
  obtain ⟨hstart, hround⟩ := hX
  have hlen : rk.toList.length = 32 := rk.length_toList
  have hload : loadQuad b = { x0 := X 0, x1 := X 1, x2 := X 2, x3 := X 3 } := by
    simp only [loadQuad_eq_wordAt, wordAt, hstart, Nat.reduceLT]
  have hfold := foldl_blockRound T rk.toList (loadQuad b) X hload fun i hi => by
    rw [hlen] at hi
    rw [hks i hi]
    exact hround i hi
  rw [blockTransform, hfold, storeReversed_toList, hlen]

/-- Settles O17: the round keys are the block transform's own. -/
theorem blockTransformFollowsRecurrence : Obligations.BlockTransformFollowsRecurrence := by
  unfold Obligations.BlockTransformFollowsRecurrence
  exact fun T rk b X hX => blockTransform_toList_of_blockSequence (fun _ _ => rfl) hX

/-- The working words after `n` rounds over the round keys `ks 0, ks 1, ...` (R117). -/
def blockRounds (T : Tables) (ks : Nat → Word) (q : Quad) : Nat → Quad
  | 0 => q
  | n + 1 => blockRound T (blockRounds T ks q n) (ks n)

/-- The words at the front of the working words, round after round, are the sequence of R117. -/
theorem blockSequence_blockRounds (T : Tables) (ks : Nat → Word) (b : Block) :
    BlockSequence T ks b.toList fun n => (blockRounds T ks (loadQuad b) n).x0 := by
  refine ⟨fun k hk => ?_, fun i _ => rfl⟩
  rw [loadQuad_eq_wordAt]
  interval_cases k <;> rfl

/-- Round key `i` in decryption order is `RK[31 - i]` (R116). -/
theorem reverseKeys_getD (rk : RoundKeys) (i : Nat) (hi : i < 32) :
    (reverseKeys rk).toList.getD i 0 = rk.toList.getD (31 - i) 0 := by
  rw [toList_getD_of_lt _ 0 i hi, toList_getD_of_lt _ 0 (31 - i) (by omega), reverseKeys, Vector.getElem_ofFn]

/-- What a `CBLK` applies is one block transform; the direction only chooses the order of the round keys (R118). -/
theorem cblkTransform_eq (s : State) (dec : Bool) :
    cblkTransform s dec =
      blockTransform Config.tables (if dec then reverseKeys s.cipher.rk else s.cipher.rk) := by
  cases dec <;> rfl

/-- Round key `i` in the order a direction chooses (R116). -/
theorem orderedKeys_getD (rk : RoundKeys) (dec : Bool) (i : Nat) (hi : i < 32) :
    (if dec then reverseKeys rk else rk).toList.getD i 0 = rk.toList.getD (if dec then 31 - i else i) 0 := by
  cases dec with
  | false => rfl
  | true => exact reverseKeys_getD rk i hi

/-- Settles O21: the command answers one block transform, and the working words of its rounds are the sequence. -/
theorem cblkRunsOneBlockTransform : Obligations.CblkRunsOneBlockTransform := by
  unfold Obligations.CblkRunsOneBlockTransform
  intro block dec s hkey hlen
  have hblock : (slice 16 block).toList = block := by
    rw [slice_toList _ _ hlen.ge, ← hlen, List.take_length]
  have hX := blockSequence_blockRounds Config.tables
    (fun i => s.cipher.rk.toList.getD (if dec then 31 - i else i) 0) (slice 16 block)
  have hdata := blockTransform_toList_of_blockSequence (orderedKeys_getD s.cipher.rk dec) hX
  rw [hblock] at hX
  refine ⟨_, hX, ?_⟩
  rw [exec_cblk_ok block dec s hkey hlen, cblkTransform_eq, hdata]
  rfl

end Sys2Proof.Machine
end

section
/-! `CENC` block by block, and what the cipher commands make of `OUTFORM` (42_mode.md R130 to R142). -/

namespace Sys2Proof.Machine

open Sys2Proof.Safety

/-- Block `i` of the bytes of a list of blocks is its element `i`. -/
theorem getElem?_eq_blockAt (bs : List Block) (i : Nat) (hi : i < bs.length) :
    bs[i]? = some (blockAt (blocksBytes bs) i) := by
  have h := blocks_getElem? (blocksBytes bs) i (by rw [blocksBytes_length]; omega)
  rwa [blocks_blocksBytes] at h

/-- Element `i` of a list of blocks, read with a default, is block `i` of their bytes. -/
theorem getD_eq_blockAt (bs : List Block) (i : Nat) (d : Block) (hi : i < bs.length) :
    bs.getD i d = blockAt (blocksBytes bs) i := by
  rw [List.getD_eq_getElem?_getD, getElem?_eq_blockAt bs i hi, Option.getD_some]

/-- ECB transforms block `i` by itself (R135, R136). -/
theorem blockAt_ecb (f : Block → Block) (q : Bytes) (i : Nat) (hi : i < q.length / 16) :
    blockAt (blocksBytes (ecb f (blocks q))) i = f (blockAt q i) := by
  apply Option.some.inj
  calc some (blockAt (blocksBytes (ecb f (blocks q))) i)
      = (ecb f (blocks q))[i]? := (getElem?_eq_blockAt _ i (by simpa using hi)).symm
    _ = ((blocks q)[i]?).map f := List.getElem?_map
    _ = some (f (blockAt q i)) := by rw [blocks_getElem? q i hi]; rfl

/-- CBC encrypts block `i` under the chain value it meets (R137). -/
theorem blockAt_cbcEncrypt (enc : Block → Block) (chain : Block) (q : Bytes) (i : Nat) (hi : i < q.length / 16) :
    blockAt (blocksBytes (cbcEncrypt enc chain (blocks q)).1) i =
      enc (xorBlock (blockAt q i) ((chain :: (cbcEncrypt enc chain (blocks q)).1).getD i chain)) := by
  apply Option.some.inj
  rw [← getElem?_eq_blockAt _ i (by simpa using hi), cbcEncrypt_getElem?, blocks_getElem? q i hi]
  rfl

/-- The chain value that block `i + 1` meets, and that stays when it is the end, is ciphertext block `i` (R137). -/
theorem cbcEncrypt_chain_succ (enc : Block → Block) (chain : Block) (q : Bytes) (i : Nat) (hi : i < q.length / 16) :
    (chain :: (cbcEncrypt enc chain (blocks q)).1).getD (i + 1) chain =
      blockAt (blocksBytes (cbcEncrypt enc chain (blocks q)).1) i := by
  rw [List.getD_cons_succ, getD_eq_blockAt _ i chain (by simpa using hi)]

/-- CBC encrypts every block after the first under the ciphertext block before it (R137). -/
theorem blockAt_cbcEncrypt_succ (enc : Block → Block) (chain : Block) (q : Bytes) (i : Nat) (hi : i + 1 < q.length / 16) :
    blockAt (blocksBytes (cbcEncrypt enc chain (blocks q)).1) (i + 1) =
      enc (xorBlock (blockAt q (i + 1)) (blockAt (blocksBytes (cbcEncrypt enc chain (blocks q)).1) i)) := by
  rw [blockAt_cbcEncrypt enc chain q (i + 1) hi, cbcEncrypt_chain_succ enc chain q i (by omega)]

/-- The chain value after a CBC encryption of at least one block is the last ciphertext block (R137). -/
theorem cbcEncrypt_snd_eq_blockAt (enc : Block → Block) (chain : Block) (q : Bytes) (n : Nat) (hn : q.length / 16 = n + 1) :
    (cbcEncrypt enc chain (blocks q)).2 = blockAt (blocksBytes (cbcEncrypt enc chain (blocks q)).1) n := by
  rw [cbcEncrypt_snd, blocks_length, hn, cbcEncrypt_chain_succ enc chain q n (by omega)]

/-- In ECB mode `CENC` transforms every block and leaves `CHAIN` (R29, R135). -/
theorem encryptBlocks_of_ecb {c : CipherContext} (h : c.cfg.mode = .ecb) (qs : List Block) :
    encryptBlocks c qs = (ecb (encBlock Config.tables c.rk) qs, c.chain) := by
  simp only [encryptBlocks, h]

/-- In CBC mode `CENC` chains the blocks from `IV` (R29, R137). -/
theorem encryptBlocks_of_cbc {c : CipherContext} (h : c.cfg.mode = .cbc) (qs : List Block) :
    encryptBlocks c qs = cbcEncrypt (encBlock Config.tables c.rk) c.iv qs := by
  simp only [encryptBlocks, h]

/-- A padded plaintext has one block more than the plaintext has whole blocks (R130). -/
theorem pad_blockCount (p : Bytes) : (pad p).length / 16 = p.length / 16 + 1 := by
  rw [pad_length, Nat.mul_div_cancel_left _ (by decide)]

/-- The ciphertext of a `CENC` is as long as the padded plaintext (R130, R134). -/
theorem cencData_length (c : CipherContext) (p : Bytes) :
    (blocksBytes (encryptBlocks c (blocks (pad p))).1).length = 16 * (p.length / 16 + 1) := by
  rw [blocksBytes_length, encryptBlocks_length, blocks_length, pad_blockCount]

/-- Settles O23: the answer is the ECB transform of the padded plaintext, and writing back `CHAIN` changes nothing. -/
theorem cencInEcbEncryptsEachBlock : Obligations.CencInEcbEncryptsEachBlock := by
  unfold Obligations.CencInEcbEncryptsEachBlock
  intro p s hkey hmode hlen
  have hready : CipherReady s.cipher := ⟨hkey, fun hcbc => by rw [hmode] at hcbc; contradiction⟩
  have hexec := exec_cenc_ok p s hready hlen
  have hclen := cencData_length s.cipher p
  rw [encryptBlocks_of_ecb hmode] at hexec hclen
  refine ⟨_, hclen, fun i hi => ?_, hexec⟩
  exact blockAt_ecb _ (pad p) i (by rw [pad_blockCount]; omega)

/-- Settles O24: block 0 meets `IV`, every further block the ciphertext block before it, and the last one stays in `CHAIN`. -/
theorem cencInCbcChainsCiphertext : Obligations.CencInCbcChainsCiphertext := by
  unfold Obligations.CencInCbcChainsCiphertext
  intro p s hkey hmode hiv hlen
  have hcount := pad_blockCount p
  have hexec := exec_cenc_ok p s ⟨hkey, fun _ => hiv⟩ hlen
  have hclen := cencData_length s.cipher p
  rw [encryptBlocks_of_cbc hmode] at hexec hclen
  refine ⟨_, hclen, ?first, fun i hi => ?further, ?answer⟩
  case first => exact blockAt_cbcEncrypt _ _ (pad p) 0 (by omega)
  case further => exact blockAt_cbcEncrypt_succ _ _ (pad p) i (by omega)
  case answer =>
    rw [cbcEncrypt_snd_eq_blockAt _ _ _ _ hcount] at hexec
    exact hexec

/-- The selector `OUTFORM` written (R26). -/
def State.setOutForm (s : State) (o : OutForm) : State :=
  { s with cipher := { s.cipher with cfg := { s.cipher.cfg with outform := o } } }

/-- The error a command meets does not depend on `OUTFORM`. -/
theorem errorOf_setOutForm (i : Instr) (s : State) (o : OutForm) : errorOf (s.setOutForm o) i = errorOf s i :=
  errorOf_congr i s (s.setOutForm o) rfl rfl rfl

/-- Encryption of blocks reads the mode, the round keys, `IV` and `CHAIN`, and not `OUTFORM`. -/
theorem encryptBlocks_setOutForm (s : State) (o : OutForm) (qs : List Block) :
    encryptBlocks (s.setOutForm o).cipher qs = encryptBlocks s.cipher qs := rfl

/-- Decryption of blocks does not read `OUTFORM` either. -/
theorem decryptBlocks_setOutForm (s : State) (o : OutForm) (qs : List Block) :
    decryptBlocks (s.setOutForm o).cipher qs = decryptBlocks s.cipher qs := rfl

/-- The transform of a `CBLK` reads the round keys alone. -/
theorem cblkTransform_setOutForm (s : State) (o : OutForm) (dec : Bool) :
    cblkTransform (s.setOutForm o) dec = cblkTransform s dec := rfl

/-- Settles O52: with either `OUTFORM` the command meets the same error, or none and then the same transform. -/
theorem outputFormChangesNoData : Obligations.OutputFormChangesNoData := by
  unfold Obligations.OutputFormChangesNoData
  intro i s o hi
  have herr := errorOf_setOutForm i s o
  cases he : errorOf s i with
  | some e => exact ⟨e, [], s.cipher.chain, exec_error i s e he hi, exec_error i (s.setOutForm o) e (herr.trans he) hi⟩
  | none =>
    cases i with
    | hreset | hwrite _ | hdigest _ _ | cinit _ _ _ _ => exact hi.elim
    | cenc p =>
      obtain ⟨hready, hlen⟩ := (errorOf_cenc_none p s).mp he
      have hother := exec_cenc_ok p (s.setOutForm o) hready hlen
      rw [encryptBlocks_setOutForm] at hother
      exact ⟨.ok, _, _, exec_cenc_ok p s hready hlen, hother⟩
    | cdec c =>
      obtain ⟨hready, hne, hdvd⟩ := (errorOf_cdec_none c s).mp he
      have hother := exec_cdec_ok c (s.setOutForm o) hready hne hdvd
      rw [decryptBlocks_setOutForm] at hother
      exact ⟨.ok, _, _, exec_cdec_ok c s hready hne hdvd, hother⟩
    | cblk b dec =>
      obtain ⟨hkey, hlen⟩ := (errorOf_cblk_none b dec s).mp he
      have hother := exec_cblk_ok b dec (s.setOutForm o) hkey hlen
      rw [cblkTransform_setOutForm] at hother
      exact ⟨.ok, _, s.cipher.chain, exec_cblk_ok b dec s hkey hlen, hother⟩

end Sys2Proof.Machine
end

section
/-! The errors of the commands: which one a command reports, and what it leaves of the state (60_exceptions.md R152 to R159). -/

namespace Sys2Proof.Machine

open Sys2Proof.Safety

/-- Settles O20: the reset value of the cipher context, and a response without data whose `CFG` byte is that of reset. -/
theorem cinitWithBadKeyResetsContext : Obligations.CinitWithBadKeyResetsContext := by
  unfold Obligations.CinitWithBadKeyResetsContext
  intro key iv mode outform s hkey
  rw [exec_cinit_badKey key iv mode outform s hkey, State.emit, Response.bytes_of_noData, Cfg.byte_reset]
  rfl

/-- The cipher context that an error leaves: the reset context after `INVALID_KEY_LENGTH`, and otherwise the context before
(R152, R153). -/
def cipherAfterError (e : Status) (c : CipherContext) : CipherContext :=
  if e = .invalidKeyLength then CipherContext.reset else c

theorem cipherAfterError_invalidKeyLength (c : CipherContext) :
    cipherAfterError .invalidKeyLength c = CipherContext.reset := if_pos rfl

theorem cipherAfterError_of_ne {e : Status} (h : e ≠ .invalidKeyLength) (c : CipherContext) : cipherAfterError e c = c :=
  if_neg h

/-- A `CINIT` meets no error exactly with a key of 16 bytes (R153). -/
theorem errorOf_cinit_none (key : Bytes) (iv : Option Bytes) (m : Mode) (o : OutForm) (s : State) :
    errorOf s (.cinit key iv m o) = none ↔ key.length = 16 := by
  simp [errorOf]

/-- The one error of a `CINIT` is `INVALID_KEY_LENGTH` (R153). -/
theorem errorOf_cinit_some (key : Bytes) (iv : Option Bytes) (m : Mode) (o : OutForm) (s : State) (e : Status) :
    errorOf s (.cinit key iv m o) = some e ↔ key.length ≠ 16 ∧ e = .invalidKeyLength := by
  simp [errorOf, eq_comm]

/-- No command that uses a constructed context reports `INVALID_KEY_LENGTH` (R153). -/
theorem ne_invalidKeyLength_of_errorOf {i : Instr} {s : State} {e : Status} (h : errorOf s i = some e) (hi : UsesCipher i) :
    e ≠ .invalidKeyLength := by
  rintro rfl
  cases i with
  | hreset | hwrite _ | hdigest _ _ | cinit _ _ _ _ => exact hi.elim
  | cenc _ | cdec _ | cblk _ _ =>
    simp only [errorOf] at h
    split_ifs at h <;> cases h

/-- A command that meets an error answers it without data, and leaves all state but the cipher context as it was (R152). -/
theorem exec_of_errorOf_some {i : Instr} {s : State} {e : Status} (h : errorOf s i = some e) :
    exec i s = .next ((s.setCipher (cipherAfterError e s.cipher)).emit
      { status := e, cfg := (cipherAfterError e s.cipher).cfg, data := [] }) := by
  cases i with
  | hreset | hwrite _ | hdigest _ _ => nomatch h
  | cinit key iv m o =>
    obtain ⟨hkey, rfl⟩ := (errorOf_cinit_some key iv m o s e).mp h
    rw [cipherAfterError_invalidKeyLength]
    exact exec_cinit_badKey key iv m o s hkey
  | cenc _ | cdec _ | cblk _ _ =>
    rw [cipherAfterError_of_ne (ne_invalidKeyLength_of_errorOf h trivial)]
    exact exec_error _ s e h trivial

/-- A command that meets no error writes the contexts alone and then answers `OK` with `CFG` as it stands (R72, R74). -/
theorem exec_of_errorOf_none {i : Instr} {s : State} (h : errorOf s i = none) :
    ∃ (hash : HashContext) (cipher : CipherContext) (data : Bytes),
      exec i s = .next (((s.setHash hash).setCipher cipher).emit { status := .ok, cfg := cipher.cfg, data := data }) := by
  cases i with
  | hreset => exact ⟨_, s.cipher, _, exec_hreset s⟩
  | hwrite data => exact ⟨_, s.cipher, _, exec_hwrite data s⟩
  | hdigest message hex => exact ⟨_, s.cipher, _, exec_hdigest message hex s⟩
  | cinit key iv m o => exact ⟨s.hash, _, _, exec_cinit_key key iv m o s ((errorOf_cinit_none key iv m o s).mp h)⟩
  | cenc p =>
    obtain ⟨hready, hlen⟩ := (errorOf_cenc_none p s).mp h
    exact ⟨s.hash, { s.cipher with chain := _ }, _, exec_cenc_ok p s hready hlen⟩
  | cdec c =>
    obtain ⟨hready, hne, hdvd⟩ := (errorOf_cdec_none c s).mp h
    exact ⟨s.hash, { s.cipher with chain := _ }, _, exec_cdec_ok c s hready hne hdvd⟩
  | cblk b dec =>
    obtain ⟨hkey, hlen⟩ := (errorOf_cblk_none b dec s).mp h
    exact ⟨s.hash, s.cipher, _, exec_cblk_ok b dec s hkey hlen⟩

/-- Settles O31: with an error the next state is the one that `exec_of_errorOf_some` writes out, and without one the answer is
`OK`. -/
theorem errorsFollowPriority : Obligations.ErrorsFollowPriority := by
  unfold Obligations.ErrorsFollowPriority
  intro i s
  cases he : errorOf s i with
  | some e => exact ⟨_, _, exec_of_errorOf_some he, rfl, rfl, rfl, fun _ => ⟨rfl, rfl, rfl, rfl⟩⟩
  | none =>
    obtain ⟨hash, cipher, data, hexec⟩ := exec_of_errorOf_none he
    exact ⟨_, _, hexec, rfl, rfl, rfl, fun hne => absurd rfl hne⟩

/-- Settles O32: the response is the one packet that the next state of either case emits, and `Status.code` gives the codes that
the statement writes out. -/
theorem oneResponsePerCommand : Obligations.OneResponsePerCommand := by
  unfold Obligations.OneResponsePerCommand
  intro code i s
  have hcode : code = Status.code := funext fun st => by cases st <;> rfl
  rw [hcode]
  cases he : errorOf s i with
  | some e =>
    refine ⟨_, [], exec_of_errorOf_some he, rfl, ?_, fun _ => rfl⟩
    simp [Response.bytes]
  | none =>
    obtain ⟨hash, cipher, data, hexec⟩ := exec_of_errorOf_none he
    refine ⟨_, data, hexec, rfl, ?_, fun hne => absurd rfl hne⟩
    simp [Response.bytes]

end Sys2Proof.Machine
end

section
/-! Decoding inverts encoding and encoding inverts decoding; the step on a whole packet, on none, and after a reset event; the
response as the host reads it (30_encoding.md R60 to R74). -/

namespace Sys2Proof.Machine

open Sys2Proof.Safety

/-- A modifier byte built for an opcode sets no bit that the opcode does not use (R64). -/
theorem modifierByte_and_not_modBits (b2 b1 b0 : Bool) :
    modifierByte b2 b1 b0 &&& ~~~Opcode.cinit.modBits = 0 ∧
      modifierByte false b1 b0 &&& ~~~Opcode.hdigest.modBits = 0 ∧
      modifierByte false false b0 &&& ~~~Opcode.cblk.modBits = 0 := by
  revert b2 b1 b0; decide

/-- A command sets no `MOD` bit that its opcode does not use (R64, R66). -/
theorem modifierOf_and_not_modBits (i : Instr) : modifierOf i &&& ~~~(opcode i).modBits = 0 := by
  cases i with
  | hreset | hwrite _ | cenc _ | cdec _ => exact BitVec.zero_and
  | hdigest message hex => exact (modifierByte_and_not_modBits false hex message.isSome).2.1
  | cinit key iv mode outform => exact (modifierByte_and_not_modBits iv.isSome (outFormBit outform) (modeBit mode)).1
  | cblk b dec => exact (modifierByte_and_not_modBits false false dec).2.2

/-- Outside `CINIT` a command has no auxiliary length (R61, R66). -/
theorem opcode_eq_cinit_or_alen_eq_zero (i : Instr) : opcode i = .cinit ∨ (headerOf i).alen = 0 := by
  cases i with
  | cinit _ _ _ _ => exact .inl rfl
  | hreset | hwrite _ | hdigest _ _ | cenc _ | cdec _ | cblk _ _ => exact .inr rfl

/-- The operands cut from the payload of a well-formed command are its own (R64, R65). -/
theorem operands_headerOf (i : Instr) (hi : i.WellFormed) :
    operands (opcode i) (headerOf i) i.payload = .ok i := by
  cases i with
  | hreset | hwrite _ | cenc _ | cdec _ => rfl
  | hdigest message hex =>
    have hmsg : (headerOf (.hdigest message hex)).modifier.getLsbD 0 = message.isSome := modifierByte_bit0 _ _ _
    have hhex : (headerOf (.hdigest message hex)).modifier.getLsbD 1 = hex := modifierByte_bit1 _ _ _
    simp only [operands, opcode, hmsg, hhex]
    cases message <;> rfl
  | cblk b dec =>
    have hdec : (headerOf (.cblk b dec)).modifier.getLsbD 0 = dec := modifierByte_bit0 _ _ _
    simp only [operands, opcode, hdec, Instr.payload]
  | cinit key iv mode outform =>
    have hlen := headerOf_len_toNat _ hi
    have halen : (headerOf (.cinit key iv mode outform)).alen.toNat = key.length := Nat.mod_eq_of_lt hi.2
    have hmode : (headerOf (.cinit key iv mode outform)).modifier.getLsbD 0 = modeBit mode := modifierByte_bit0 _ _ _
    have hout : (headerOf (.cinit key iv mode outform)).modifier.getLsbD 1 = outFormBit outform := modifierByte_bit1 _ _ _
    have hiv : (headerOf (.cinit key iv mode outform)).modifier.getLsbD 2 = iv.isSome := modifierByte_bit2 _ _ _
    simp only [operands, opcode, hlen, halen, hmode, hout, hiv, modeOfBit_modeBit, outFormOfBit_outFormBit]
    cases iv <;> simp [Instr.payload]

/-- The packet of a well-formed command states that command (R66). -/
theorem decodePacket_headerOf (i : Instr) (hi : i.WellFormed) : decodePacket (headerOf i) i.payload = .ok i :=
  (decodePacket_eq_ok _ _ _).mpr ⟨rfl, opcode i, rfl, modifierOf_and_not_modBits i, opcode_eq_cinit_or_alen_eq_zero i,
    operands_headerOf i hi⟩

/-- Settles O54: the packet is the header and the whole payload, and the operands cut from it are those of the command. -/
theorem decodeInvertsEncode : Obligations.DecodeInvertsEncode := by
  unfold Obligations.DecodeInvertsEncode
  intro i rest hi
  rw [encode, decode_packet _ _ _ (headerOf_len_toNat i hi).symm, decodePacket_headerOf i hi]

/-- A byte without reserved `MOD` bits is the modifier byte of its low bits (R64, R66). -/
theorem modifierByte_of_modBits {op : Opcode} {b : Byte} (h : b &&& ~~~op.modBits = 0) :
    modifierByte (b.getLsbD 2) (b.getLsbD 1) (b.getLsbD 0) = b := by
  have hwidth : modWidth op ≤ 3 := by cases op <;> decide
  have hhigh := (and_not_modBits_eq_zero op b).mp h
  exact modifierByte_of_bits b ((and_not_lowMask_eq_zero b 3).mpr fun i hi => hhigh i (hwidth.trans hi))

/-- The commands that can be cut from a packet, opcode by opcode: the inversion of `operands` (R64 to R66). -/
inductive Cut (h : Header) (p : Bytes) : Opcode → Instr → Prop
  | hreset : h.len = 0 → Cut h p .hreset .hreset
  | hwrite : Cut h p .hwrite (.hwrite p)
  | hdigestMessage : h.modifier.getLsbD 0 = true → Cut h p .hdigest (.hdigest (some p) (h.modifier.getLsbD 1))
  | hdigest : h.modifier.getLsbD 0 = false → h.len = 0 → Cut h p .hdigest (.hdigest none (h.modifier.getLsbD 1))
  | cinitIv : h.alen.toNat ≤ h.len.toNat → h.modifier.getLsbD 2 = true → Cut h p .cinit
      (.cinit (p.take h.alen.toNat) (some (p.drop h.alen.toNat)) (modeOfBit (h.modifier.getLsbD 0))
        (outFormOfBit (h.modifier.getLsbD 1)))
  | cinit : h.len.toNat = h.alen.toNat → h.modifier.getLsbD 2 = false → Cut h p .cinit
      (.cinit p none (modeOfBit (h.modifier.getLsbD 0)) (outFormOfBit (h.modifier.getLsbD 1)))
  | cenc : Cut h p .cenc (.cenc p)
  | cdec : Cut h p .cdec (.cdec p)
  | cblk : Cut h p .cblk (.cblk p (h.modifier.getLsbD 0))

/-- Every command that `operands` gives is one of these. -/
theorem cut_of_operands {op : Opcode} {h : Header} {p : Bytes} {i : Instr} (hok : operands op h p = .ok i) : Cut h p op i := by
  cases op with
  | hwrite => cases hok; exact .hwrite
  | cenc => cases hok; exact .cenc
  | cdec => cases hok; exact .cdec
  | cblk => cases hok; exact .cblk
  | hreset =>
    simp only [operands] at hok
    split_ifs at hok with hlen
    cases hok; exact .hreset hlen
  | hdigest =>
    simp only [operands] at hok
    split_ifs at hok with hmsg hlen <;> cases hok
    · exact .hdigestMessage hmsg
    · exact .hdigest (Bool.eq_false_iff.mpr hmsg) hlen
  | cinit =>
    simp only [operands] at hok
    split_ifs at hok with hle hiv hlen <;> cases hok
    · exact .cinitIv (Nat.le_of_not_lt hle) hiv
    · exact .cinit hlen (Bool.eq_false_iff.mpr hiv)

/-- A cut command has the opcode it was cut under (R63). -/
theorem Cut.opcode_eq {h : Header} {p : Bytes} {op : Opcode} {i : Instr} (hc : Cut h p op i) : opcode i = op := by
  cases hc <;> rfl

/-- A cut command has the whole payload (R65). -/
theorem Cut.payload_eq {h : Header} {p : Bytes} {op : Opcode} {i : Instr} (hc : Cut h p op i)
    (hp : p.length = h.len.toNat) : i.payload = p := by
  cases hc with
  | hwrite | cenc | cdec | cblk | hdigestMessage => rfl
  | hreset hlen | hdigest _ hlen => exact (List.length_eq_zero_iff.mp (by rw [hp, hlen]; rfl)).symm
  | cinitIv => exact List.take_append_drop _ _
  | cinit => exact List.append_nil p

/-- The auxiliary length of a cut command is `ALEN`, where a header without `CINIT` has none (R61, R66). -/
theorem Cut.auxLength_eq {h : Header} {p : Bytes} {op : Opcode} {i : Instr} (hc : Cut h p op i)
    (hp : p.length = h.len.toNat) (halen : op = .cinit ∨ h.alen = 0) : i.auxLength = h.alen.toNat := by
  cases hc with
  | cinitIv hle => exact List.length_take_of_le (by omega)
  | cinit hlen => exact hp.trans hlen
  | hreset | hwrite | hdigestMessage | hdigest | cenc | cdec | cblk =>
    rw [halen.resolve_left (by decide)]
    rfl

/-- The `MOD` byte of a cut command is that of the header, where the header sets no reserved bit (R64, R66). -/
theorem Cut.modifierOf_eq {h : Header} {p : Bytes} {op : Opcode} {i : Instr} (hc : Cut h p op i)
    (hmod : h.modifier &&& ~~~op.modBits = 0) : modifierOf i = h.modifier := by
  have hhigh := (and_not_modBits_eq_zero op h.modifier).mp hmod
  have hbyte := modifierByte_of_modBits hmod
  cases hc with
  | hreset | hwrite | cenc | cdec =>
    rw [hhigh 2 (by decide), hhigh 1 (by decide), hhigh 0 (by decide)] at hbyte
    exact hbyte
  | hdigestMessage hmsg | hdigest hmsg =>
    rw [hhigh 2 (by decide), hmsg] at hbyte
    exact hbyte
  | cinitIv _ hiv | cinit _ hiv =>
    rw [hiv] at hbyte
    rw [modifierOf, modeBit_modeOfBit, outFormBit_outFormOfBit]
    exact hbyte
  | cblk =>
    rw [hhigh 2 (by decide), hhigh 1 (by decide)] at hbyte
    exact hbyte

/-- A packet that states a command is the packet of that command, which is well-formed (R66, R71). -/
theorem wellFormed_of_decodePacket {h : Header} {p : Bytes} {i : Instr} (hp : p.length = h.len.toNat)
    (hok : decodePacket h p = .ok i) : i.WellFormed ∧ h.bytes ++ p = encode i := by
  obtain ⟨hrsv, op, hopc, hmod, halen, hoperands⟩ := (decodePacket_eq_ok h p i).mp hok
  have hcut := cut_of_operands hoperands
  have hpayload := hcut.payload_eq hp
  have haux := hcut.auxLength_eq hp halen
  have hheader : headerOf i = h := by
    rw [headerOf, hcut.opcode_eq, hcut.modifierOf_eq hmod, haux, hpayload, hp, ← hopc, ← hrsv,
      BitVec.ofNat_toNat, BitVec.ofNat_toNat]
    simp only [BitVec.setWidth_eq]
  refine ⟨⟨?_, ?_⟩, by rw [encode, hheader, hpayload]⟩
  · rw [Instr.PayloadFits, hpayload, hp]
    exact h.len.isLt
  · rw [Instr.KeyFits, haux]
    exact h.alen.isLt

/-- A stream that decodes to a command begins with a whole packet that states it (R62, R69). -/
theorem decode_command {bs rest : Bytes} {i : Instr} (hd : decode bs = .command i rest) :
    ∃ (h : Header) (p : Bytes), p.length = h.len.toNat ∧ bs = h.bytes ++ p ++ rest ∧ decodePacket h p = .ok i := by
  obtain ⟨-, hs⟩ | ⟨-, -, hs⟩ | ⟨h, tail, -, ⟨-, hs⟩ | ⟨hle, hbs⟩⟩ := decode_cases bs
  · exact nomatch hs.symm.trans hd
  · exact nomatch hs.symm.trans hd
  · exact nomatch hs.symm.trans hd
  · have hp := List.length_take_of_le hle
    rw [hbs, decode_packet h _ _ hp] at hd
    cases hok : decodePacket h (tail.take h.len.toNat) with
    | error why => rw [hok] at hd; cases hd
    | ok j =>
      rw [hok] at hd
      cases hd
      exact ⟨h, _, hp, hbs, hok⟩

/-- Settles O55: the packet in front is whole, and the fields and operands cut from it are those the encoder writes. -/
theorem encodeInvertsDecode : Obligations.EncodeInvertsDecode := by
  unfold Obligations.EncodeInvertsDecode
  intro bs rest i hd
  obtain ⟨h, p, hp, rfl, hok⟩ := decode_command hd
  obtain ⟨hwf, hpacket⟩ := wellFormed_of_decodePacket hp hok
  exact ⟨hwf, by rw [hpacket]⟩

/-- Settles O33: `step` calls the decoder once and then the meaning. -/
theorem stepRunsDecodedCommand : Obligations.StepRunsDecodedCommand := by
  unfold Obligations.StepRunsDecodedCommand
  intro s i rest hd
  rw [step, hd]
  rfl

/-- Settles O34: the stream decodes to the command (O54), so the step runs it (O33). -/
theorem stepRunsEncodedCommand : Obligations.StepRunsEncodedCommand := by
  unfold Obligations.StepRunsEncodedCommand
  intro s i rest hi hs
  exact stepRunsDecodedCommand s i rest (by rw [hs, decodeInvertsEncode i rest hi])

/-- Settles O42: a reset event leaves no byte waiting, so the packet presented is the whole stream. -/
theorem resetEventStartsAfresh : Obligations.ResetEventStartsAfresh := by
  unfold Obligations.ResetEventStartsAfresh
  intro s i hi
  have hcmd : (s.resetEvent.present (encode i)).cmd = encode i ++ [] := by simp
  rw [stepRunsEncodedCommand _ i [] hi hcmd]
  rfl

/-- Settles O36: what is left of the cases of the decoder when no whole packet stands in front. -/
theorem noStepWithoutWholePacket : Obligations.NoStepWithoutWholePacket := by
  unfold Obligations.NoStepWithoutWholePacket
  intro s hno
  obtain ⟨hnil, hd⟩ | ⟨hne, -, hd⟩ | ⟨h, tail, hbs, ⟨-, hd⟩ | ⟨hle, hpacket⟩⟩ := decode_cases s.cmd
  · rw [step, hd, if_pos hnil]
  · rw [step, hd, if_neg hne]
  · rw [step, hd, if_neg (by rw [hbs]; exact List.cons_ne_nil _ _)]
  · exact absurd ⟨_, _, ⟨h, _, List.length_take_of_le hle, rfl⟩, hpacket⟩ hno

/-- The host reads from a packet whose length field is right the fields it was made of (R72 to R74). -/
theorem readResponse_bytes_append (r : Response) (rest : Bytes) (hfits : r.data.length < 2 ^ 32) :
    readResponse (r.bytes ++ rest) = some (r, rest) := by
  have hlen : (BitVec.ofNat 32 r.data.length).toNat = r.data.length := by
    rw [BitVec.toNat_ofNat, Nat.mod_eq_of_lt hfits]
  simp only [Response.bytes, unbe32, List.cons_append, List.nil_append, readResponse, be32_extract, hlen,
    statusOfCode_code, cfgOfByte_byte]
  rw [if_neg (by simp), List.take_left, List.drop_left]

/-- Settles O53: each field of the packet is read back from its own bytes. -/
theorem responseReadsBack : Obligations.ResponseReadsBack := by
  unfold Obligations.ResponseReadsBack
  exact readResponse_bytes_append

/-- Bits 7:4 of `CFG` read as 0, and there is no bit above them (R26). -/
theorem Cfg.byte_getLsbD_of_ge (c : Cfg) (i : Nat) (hi : 4 ≤ i) : c.byte.getLsbD i = false := by
  have h0 : ¬ i < 1 := by omega
  have h1 : ¬ i - 1 < 1 := by omega
  have h2 : ¬ i - 1 - 1 < 1 := by omega
  have h3 : ¬ i - 1 - 1 - 1 < 1 := by omega
  simp only [Cfg.byte, BitVec.getLsbD_append, h0, h1, h2, h3, if_false, BitVec.getLsbD_zero]

/-- Bits 3:0 of `CFG`: `IVOK`, `KEYOK`, `OUTFORM`, `MODE`, since the byte shows every field (R26). -/
theorem Cfg.byte_getLsbD_of_lt (c : Cfg) : c.byte.getLsbD 0 = modeBit c.mode ∧ c.byte.getLsbD 1 = outFormBit c.outform ∧
    c.byte.getLsbD 2 = c.keyOk ∧ c.byte.getLsbD 3 = c.ivOk := by
  have hmode := congrArg (fun d => modeBit d.mode) (cfgOfByte_byte c)
  have hout := congrArg (fun d => outFormBit d.outform) (cfgOfByte_byte c)
  simp only [cfgOfByte, modeBit_modeOfBit, outFormBit_outFormOfBit] at hmode hout
  exact ⟨hmode, hout, congrArg Cfg.keyOk (cfgOfByte_byte c), congrArg Cfg.ivOk (cfgOfByte_byte c)⟩

theorem modeBit_eq_beq (m : Mode) : modeBit m = (m == .ecb) := by cases m <;> rfl

theorem outFormBit_eq_beq (o : OutForm) : outFormBit o = (o == .text) := by cases o <;> rfl

/-- Settles O40: the four fields one by one, and then the bits that read as 0. -/
theorem cfgByteLayout : Obligations.CfgByteLayout := by
  unfold Obligations.CfgByteLayout
  intro c
  obtain ⟨hmode, hout, hkey, hiv⟩ := c.byte_getLsbD_of_lt
  exact ⟨hmode.trans (modeBit_eq_beq _), hout.trans (outFormBit_eq_beq _), hkey, hiv, c.byte_getLsbD_of_ge⟩

/-- Settles O58: the decoder, run on each word. -/
theorem tableWordsDecode : Obligations.TableWordsDecode := by
  unfold Obligations.TableWordsDecode
  refine ⟨?_, ?_, ?_, ?_, ?_, ?_, ?_, ?_, ?_, ?_⟩ <;> rfl

end Sys2Proof.Machine
end

section
/-! Rotation, and the hash commands as the hash of the bytes written: absorption in pieces, `HDIGEST` with and without a
message (00_scope.md R14, 40_hash.md R95 to R98). -/

namespace Sys2Proof.Machine

open Sys2Proof.Safety

/-- The model's rotation is that of `BitVec` (R14). -/
theorem rotl_eq_rotateLeft (x : Word) (n : Nat) : rotl x n = x.rotateLeft n := rfl

/-- Settles O1: bit `(i + n) mod 32` of the rotation comes from the low part of `x` when `i + n mod 32` does not pass bit 31, and
from the part that wraps around when it does. -/
theorem rotationMovesEveryBit : Obligations.RotationMovesEveryBit := by
  unfold Obligations.RotationMovesEveryBit
  intro x n i hi
  rw [rotl_eq_rotateLeft, BitVec.getLsbD_rotateLeft, Bool.cond_decide]
  by_cases hwrap : i + n % 32 < 32
  · have hbit : (i + n) % 32 = i + n % 32 := by omega
    rw [hbit, if_neg (by omega), Nat.add_sub_cancel, decide_eq_true hwrap, Bool.true_and]
  · have hbit : (i + n) % 32 = i + n % 32 - 32 := by omega
    rw [hbit, if_pos (by omega)]
    congr 1
    omega

/-- Absorbing nothing changes nothing, where less than a block is pending (R89). -/
theorem absorb_nil {h : HashContext} (hbuf : h.buf.length ≤ 63) : absorb h [] = h := by
  have hdiv : h.buf.length / 64 = 0 := by omega
  simp [absorb_eq, foldCompress_short _ _ (Nat.lt_succ_of_le hbuf), hdiv]

/-- Settles O6: the context written back is the one that was there. -/
theorem hwriteOfNothingChangesNothing : Obligations.HwriteOfNothingChangesNothing := by
  unfold Obligations.HwriteOfNothingChangesNothing
  intro s hbuf
  rw [exec_hwrite, absorb_nil hbuf]
  rfl

/-- The pending bytes after the whole blocks of `s`, followed by `b`, fold on as `s` followed by `b` does (R98). -/
theorem foldCompress_pending (v : Digest8) (s b : Bytes) :
    foldCompress (foldCompress v s) (s.drop (64 * (s.length / 64)) ++ b) = foldCompress v (s ++ b) := by
  have hwhole : 64 ∣ (s.take (64 * (s.length / 64))).length := ⟨s.length / 64, List.length_take_of_le (Nat.mul_div_le _ _)⟩
  rw [← foldCompress_take v s, ← foldCompress_append _ _ _ hwhole, ← List.append_assoc, List.take_append_drop]

/-- What stays pending of the pending bytes of `s` followed by `b` is what stays pending of `s` followed by `b` (R98). -/
theorem drop_pending (s b : Bytes) :
    let p := s.drop (64 * (s.length / 64)) ++ b
    p.drop (64 * (p.length / 64)) = (s ++ b).drop (64 * ((s ++ b).length / 64)) := by
  intro p
  have hp : p = (s ++ b).drop (64 * (s.length / 64)) := (List.drop_append_of_le_length (Nat.mul_div_le _ _)).symm
  have hcount : 64 * (s.length / 64) + 64 * (p.length / 64) = 64 * ((s ++ b).length / 64) := by
    rw [hp, List.length_drop, List.length_append]
    omega
  rw [← hcount, ← List.drop_drop, ← hp]

/-- Settles O7: the digest, the pending bytes and the count, each by its own law. -/
theorem absorbingTwiceIsAbsorbingOnce : Obligations.AbsorbingTwiceIsAbsorbingOnce := by
  unfold Obligations.AbsorbingTwiceIsAbsorbingOnce
  intro h a b
  have hcount : h.nbits + BitVec.ofNat 64 (8 * a.length) + BitVec.ofNat 64 (8 * b.length) =
      h.nbits + BitVec.ofNat 64 (8 * (a ++ b).length) := by
    rw [List.length_append, Nat.mul_add, BitVec.ofNat_add, BitVec.add_assoc]
  simp only [absorb_eq, foldCompress_pending, drop_pending, hcount, List.append_assoc]

/-- The context after the bytes `m` since its reset is the one that absorbs them from the fresh context (R25). -/
theorem written_iff_eq_absorb (h : HashContext) (m : Bytes) : Written h m ↔ h = absorb HashContext.fresh m := by
  rw [absorb_eq]
  obtain ⟨v, buf, nbits⟩ := h
  constructor
  · rintro ⟨hv, hbuf, hnbits⟩
    simp only at hv hbuf hnbits
    simp [HashContext.fresh, hv, hbuf, hnbits]
  · rintro ⟨⟩
    exact ⟨rfl, rfl, by simp [HashContext.fresh]⟩

/-- The fresh context is the one after no byte. -/
theorem written_fresh : Written HashContext.fresh [] :=
  (written_iff_eq_absorb _ _).mpr (absorb_nil (Nat.zero_le _)).symm

/-- Absorbing adds to the bytes written (R98). -/
theorem written_absorb {h : HashContext} {m : Bytes} (hw : Written h m) (data : Bytes) :
    Written (absorb h data) (m ++ data) := by
  rw [written_iff_eq_absorb] at hw ⊢
  rw [hw, absorbingTwiceIsAbsorbingOnce]

/-- The padded message is its whole blocks followed by the padded pending bytes (R90, R97). -/
theorem padMessage_eq_take_append_fill {h : HashContext} {m : Bytes} (hw : Written h m) :
    padMessage m = m.take (64 * (m.length / 64)) ++ fill h.buf h.nbits := by
  have hzeros : zeroFill h.buf.length = (55 + (64 - m.length % 64)) % 64 := by
    rw [zeroFill, Written_buf_length hw, Nat.mod_mod]
  rw [fill, hzeros, hw.buf, hw.nbits, padMessage]
  simp only [← List.append_assoc, List.take_append_drop]
  rfl

/-- Finalising the context after the bytes `m` gives the registers of `H(m)` (R97). -/
theorem digestBytes_finalize {h : HashContext} {m : Bytes} (hw : Written h m) : digestBytes (finalize h) = hashOf m := by
  have hbuf : h.buf.length ≤ 63 := by rw [Written_buf_length hw]; omega
  have hwhole : 64 ∣ (m.take (64 * (m.length / 64))).length := ⟨m.length / 64, List.length_take_of_le (Nat.mul_div_le _ _)⟩
  have hfinal : finalize h = foldCompress Config.tables.hashIV (padMessage m) := by
    rw [finalizeCompressesEveryTailBlock h hbuf, hw.v, padMessage_eq_take_append_fill hw, foldCompress_append _ _ _ hwhole,
      foldCompress_take]
  rw [hfinal]
  rfl

/-- The data of an `HDIGEST` whose context is that of the bytes `m` (R96, R97). -/
theorem digestData_finalize {h : HashContext} {m : Bytes} (hw : Written h m) (hex : Bool) :
    digestData (finalize h) hex = if hex then hexBytes (hashOf m) else hashOf m := by
  rw [digestData, digestBytes_finalize hw]

/-- An `HDIGEST` that finalises the context of the bytes `m` answers `H(m)` and leaves the fresh context (R96, R97). -/
theorem exec_hdigest_of_written {message : Option Bytes} {m : Bytes} {s : State}
    (hw : Written (digestContext s.hash message) m) (hex : Bool) :
    exec (.hdigest message hex) s = .next ((s.setHash HashContext.fresh).emit
      { status := .ok, cfg := s.cipher.cfg, data := if hex then hexBytes (hashOf m) else hashOf m }) := by
  rw [exec_hdigest, digestData_finalize hw]

/-- A supplied message is what the finalised context has absorbed (R96). -/
theorem written_digestContext_some (h : HashContext) (m : Bytes) : Written (digestContext h (some m)) m :=
  written_absorb written_fresh m

/-- Settles O12: the finalised context is that of the message alone. -/
theorem hdigestOfSuppliedMessage : Obligations.HdigestOfSuppliedMessage := by
  unfold Obligations.HdigestOfSuppliedMessage
  exact fun m hex s => exec_hdigest_of_written (written_digestContext_some s.hash m) hex

/-- Settles O13: the finalised context is the one that stands. -/
theorem hdigestOfWrittenBytes : Obligations.HdigestOfWrittenBytes := by
  unfold Obligations.HdigestOfWrittenBytes
  exact fun m hex s hw => exec_hdigest_of_written (message := none) hw hex

/-- Any number of `HWRITE`s complete, write their pieces one after another, and leave the cipher context alone (R95). -/
theorem execAll_hwrite (pieces : List Bytes) {s : State} {m : Bytes} (hw : Written s.hash m) :
    ∃ t : State, execAll (pieces.map Instr.hwrite) s = .next t ∧ Written t.hash (m ++ pieces.flatten) ∧
      t.cipher = s.cipher := by
  induction pieces generalizing s m with
  | nil => exact ⟨s, rfl, by simpa using hw, rfl⟩
  | cons p ps ih =>
    obtain ⟨t, hrun, htw, hcipher⟩ :=
      ih (s := (s.setHash (absorb s.hash p)).emit { status := .ok, cfg := s.cipher.cfg, data := [] }) (written_absorb hw p)
    refine ⟨t, ?_, by rwa [List.flatten_cons, ← List.append_assoc], hcipher⟩
    rw [List.map_cons, execAll, exec_hwrite]
    exact hrun

/-- Settles O14: both `HDIGEST`s finalise a context of the same bytes under the same `CFG`. -/
theorem streamingEqualsOneShot : Obligations.StreamingEqualsOneShot := by
  unfold Obligations.StreamingEqualsOneShot
  intro pieces hex s hfresh
  obtain ⟨t, hrun, hw, hcipher⟩ := execAll_hwrite pieces (s := s) (by rw [hfresh]; exact written_fresh)
  have hstream := exec_hdigest_of_written (message := none) hw hex
  rw [hcipher] at hstream
  exact ⟨t, _, _, _, hrun, hstream, exec_hdigest_of_written (written_digestContext_some s.hash _) hex, rfl, rfl, rfl, rfl⟩

end Sys2Proof.Machine
end

section
/-! The block transform and its inverse, and the commands `CINIT` and `CBLK` (41_keyschedule_block.md R114 to R123). -/

namespace Sys2Proof.Machine

open Sys2Proof.Safety

/-- All rounds undone: the rounds over the same keys in reversed order, on the reversed working words after them, give the
reversed working words before them (R121). -/
theorem foldl_blockRound_reverse (T : Tables) (ks : List Word) (q : Quad) :
    ks.reverse.foldl (blockRound T) (ks.foldl (blockRound T) q).reverse = q.reverse := by
  induction ks generalizing q with
  | nil => rfl
  | cons k ks ih =>
    rw [List.foldl_cons, List.reverse_cons, List.foldl_append, ih, List.foldl_cons, List.foldl_nil, blockRound_reverse]

/-- The block transform over the reversed round keys inverts the block transform (R121). -/
theorem blockTransform_reverseKeys (T : Tables) (rk : RoundKeys) (b : Block) :
    blockTransform T (reverseKeys rk) (blockTransform T rk b) = b := by
  rw [blockTransform, blockTransform, loadQuad_storeReversed, reverseKeys_toList, foldl_blockRound_reverse,
    storeReversed_loadQuad]

/-- `Dec` inverts `Enc` (R121). -/
theorem decBlock_encBlock (T : Tables) (rk : RoundKeys) (b : Block) : decBlock T rk (encBlock T rk b) = b :=
  blockTransform_reverseKeys T rk b

/-- `Enc` inverts `Dec` (R121). -/
theorem encBlock_decBlock (T : Tables) (rk : RoundKeys) (b : Block) : encBlock T rk (decBlock T rk b) = b := by
  have h := blockTransform_reverseKeys T (reverseKeys rk) b
  rwa [reverseKeys_reverseKeys] at h

/-- Settles O18: the round keys in the other order undo the rounds, and reversing them twice gives them back. -/
theorem blockDecryptionInvertsEncryption : Obligations.BlockDecryptionInvertsEncryption := by
  unfold Obligations.BlockDecryptionInvertsEncryption
  exact fun T rk b => ⟨decBlock_encBlock T rk b, encBlock_decBlock T rk b⟩

/-- A `CBLK` in one direction undoes the transform of one in the other. -/
theorem cblkTransform_not (s : State) (dec : Bool) (b : Block) :
    cblkTransform s (!dec) (cblkTransform s dec b) = b := by
  cases dec with
  | false => exact decBlock_encBlock _ _ b
  | true => exact encBlock_decBlock _ _ b

/-- The transform of a `CBLK` does not read the response stream. -/
theorem cblkTransform_emit (s : State) (r : Response) (dec : Bool) : cblkTransform (s.emit r) dec = cblkTransform s dec := rfl

/-- As many bytes as a block has are the bytes of the block made of them. -/
theorem slice_toList_of_length_eq {bs : Bytes} {n : Nat} (h : bs.length = n) : (slice n bs).toList = bs := by
  rw [slice_toList _ _ h.ge, ← h, List.take_length]

/-- A block is made of its own bytes. -/
theorem slice_toList_self {n : Nat} (b : Vector Byte n) : slice n b.toList = b := by
  have h := slice_append_toList n b []
  rwa [List.append_nil] at h

/-- Settles O22: the first answer changes no state that the second command reads, so that one undoes its transform. -/
theorem cblkBackAndForth : Obligations.CblkBackAndForth := by
  unfold Obligations.CblkBackAndForth
  intro block dec s hkey hlen
  have hsecond (r : Response) := exec_cblk_ok (cblkTransform s dec (slice 16 block)).toList (!dec) (s.emit r) hkey (by simp)
  simp only [cblkTransform_emit, slice_toList_self, cblkTransform_not, slice_toList_of_length_eq hlen] at hsecond
  exact ⟨_, _, _, exec_cblk_ok block dec s hkey hlen, rfl, by simp, hsecond _, rfl⟩

/-- The working words of the key recurrence after `n` rounds (R115). -/
def keyRounds (T : Tables) (q : Quad) : Nat → Quad
  | 0 => q
  | n + 1 => keyRound T (keyRounds T q n) (T.ck.toList.getD n 0)

/-- The words at the front of the working words, round after round, are the sequence of R114 and R115. -/
theorem keySequence_keyRounds (T : Tables) (key : Block) :
    KeySequence T key.toList fun n => (keyRounds T (keyQuad T key) n).x0 := by
  refine ⟨fun k hk => ?_, fun i _ => rfl⟩
  rw [keyQuad, loadQuad_eq_wordAt, toList_getD_of_lt T.fk 0 k hk]
  interval_cases k <;> rfl

/-- A present IV of 16 bytes is what `IV` holds after a `CINIT` (R28, R122). -/
theorem ivRegister_toList {b : Bytes} (hb : b.length = 16) : (ivRegister (some b)).toList = b := by
  rw [ivRegister, if_pos hb, slice_toList_of_length_eq hb]

/-- Without an IV of 16 bytes `IV` is zero after a `CINIT` (R28, R122). -/
theorem ivRegister_eq_zero {iv : Option Bytes} (h : ¬ ∃ b, iv = some b ∧ b.length = 16) :
    ivRegister iv = Vector.replicate 16 0 := by
  cases iv with
  | none => rfl
  | some b => exact if_neg fun hb => h ⟨b, rfl, hb⟩

/-- Settles O19: the context is the one that `constructCipher` gives, and its round keys follow the recurrence by O16. -/
theorem cinitConstructsContext : Obligations.CinitConstructsContext := by
  unfold Obligations.CinitConstructsContext
  intro key iv mode outform s hkey
  have hK := keySequence_keyRounds Config.tables (slice 16 key)
  have hrk := keyScheduleFollowsRecurrence Config.tables (slice 16 key) _ hK
  rw [slice_toList_of_length_eq hkey] at hK
  refine ⟨_, _, hK, exec_cinit_key key iv mode outform s hkey, rfl, rfl, rfl, ivAccepted_eq_true iv, hrk, ?_,
    ivRegister_eq_zero, rfl, rfl, rfl, rfl⟩
  rintro b rfl hb
  exact ivRegister_toList hb

end Sys2Proof.Machine
end

section
/-! De-padding, `CDEC` block by block, and what decryption makes of a ciphertext of `CENC` and of a damaged one (42_mode.md R130
to R145). -/

namespace Sys2Proof.Machine

open Sys2Proof.Safety

/-- De-padding keeps all bytes but as many at the end as the last one says (R131). -/
theorem depad_append_singleton (q : Bytes) (last : Byte) :
    depad (q ++ [last]) = (q ++ [last]).take (q.length + 1 - last.toNat) := by
  simp [depad]

/-- Settles O28: each clause is about the number of bytes that de-padding keeps. -/
theorem depadObeysLastByteOnly : Obligations.DepadObeysLastByteOnly := by
  unfold Obligations.DepadObeysLastByteOnly
  intro q last
  have hlen : (q ++ [last]).length = q.length + 1 := List.length_append
  rw [depad_append_singleton]
  refine ⟨?zero, fun hle => ?upToLength, fun hge => ?atLeastLength⟩
  case zero =>
    rintro rfl
    exact List.take_of_length_le hlen.le
  case upToLength =>
    refine ⟨(q ++ [last]).drop (q.length + 1 - last.toNat), ?_, (List.take_append_drop _ _).symm⟩
    rw [List.length_drop, hlen]
    omega
  case atLeastLength => rw [Nat.sub_eq_zero_of_le hge, List.take_zero]

/-- De-padding removes the padding (R143). -/
theorem depad_pad (p : Bytes) : depad (pad p) = p := by
  obtain ⟨n, hn⟩ := Nat.exists_eq_succ_of_ne_zero (Nat.one_le_iff_ne_zero.mp (padCount_pos p.length))
  have hvalue : (BitVec.ofNat 8 (n + 1)).toNat = n + 1 := by
    have hle := padCount_le p.length
    rw [BitVec.toNat_ofNat]
    omega
  have hkept : (p ++ List.replicate n (BitVec.ofNat 8 (n + 1))).length + 1 - (n + 1) = p.length := by
    rw [List.length_append, List.length_replicate]
    omega
  rw [pad, hn, Nat.succ_eq_add_one, List.replicate_succ', ← List.append_assoc, depad_append_singleton, hvalue, hkept,
    List.append_assoc, List.take_left]

/-- Settles O27: the last byte of the padding says how long it is. -/
theorem depadInvertsPad : Obligations.DepadInvertsPad := by
  unfold Obligations.DepadInvertsPad
  exact fun p => ⟨depad_pad p, pad_length p⟩

/-- In ECB mode `CDEC` transforms every block and leaves `CHAIN` (R29, R136). -/
theorem decryptBlocks_of_ecb {c : CipherContext} (h : c.cfg.mode = .ecb) (qs : List Block) :
    decryptBlocks c qs = (ecb (decBlock Config.tables c.rk) qs, c.chain) := by
  simp only [decryptBlocks, h]

/-- In CBC mode `CDEC` chains the ciphertext blocks from `IV` (R29, R138). -/
theorem decryptBlocks_of_cbc {c : CipherContext} (h : c.cfg.mode = .cbc) (qs : List Block) :
    decryptBlocks c qs = cbcDecrypt (decBlock Config.tables c.rk) c.iv qs := by
  simp only [decryptBlocks, h]

/-- The decrypted blocks have as many bytes as the ciphertext (R136, R138). -/
theorem cdecBytes_length (c : CipherContext) {bs : Bytes} (h : 16 ∣ bs.length) :
    (blocksBytes (decryptBlocks c (blocks bs)).1).length = bs.length := by
  rw [blocksBytes_length, decryptBlocks_length, blocks_length, Nat.mul_div_cancel' h]

/-- CBC decrypts block `i` under the chain value it meets (R138). -/
theorem blockAt_cbcDecrypt (dec : Block → Block) (chain : Block) (q : Bytes) (i : Nat) (hi : i < q.length / 16) :
    blockAt (blocksBytes (cbcDecrypt dec chain (blocks q)).1) i =
      xorBlock (dec (blockAt q i)) ((chain :: blocks q).getD i chain) := by
  apply Option.some.inj
  rw [← getElem?_eq_blockAt _ i (by simpa using hi), cbcDecrypt_getElem?, blocks_getElem? q i hi]
  rfl

/-- The chain value that block `i + 1` meets, and that stays when it is the end, is ciphertext block `i` (R138). -/
theorem cbcDecrypt_chain_succ (chain : Block) (q : Bytes) (i : Nat) (hi : i < q.length / 16) :
    (chain :: blocks q).getD (i + 1) chain = blockAt q i := by
  rw [List.getD_cons_succ, List.getD_eq_getElem?_getD, blocks_getElem? q i hi, Option.getD_some, blockAt]

/-- The chain value after a CBC decryption of at least one block is the last ciphertext block (R138). -/
theorem cbcDecrypt_snd_eq_blockAt (dec : Block → Block) (chain : Block) (q : Bytes) (hq : 0 < q.length / 16) :
    (cbcDecrypt dec chain (blocks q)).2 = blockAt q (q.length / 16 - 1) := by
  rw [cbcDecrypt_snd, blocks_length, ← cbcDecrypt_chain_succ chain q _ (Nat.sub_one_lt_of_lt hq), Nat.sub_add_cancel hq]

/-- A ciphertext that `CDEC` accepts has a block. -/
theorem blockCount_pos {c : Bytes} (hne : c ≠ []) (hdvd : 16 ∣ c.length) : 0 < c.length / 16 :=
  Nat.div_pos (Nat.le_of_dvd (List.length_pos_of_ne_nil hne) hdvd) (by decide)

/-- Settles O25: the answer is the ECB transform of the ciphertext de-padded, and writing back `CHAIN` changes nothing. -/
theorem cdecInEcbDecryptsEachBlock : Obligations.CdecInEcbDecryptsEachBlock := by
  unfold Obligations.CdecInEcbDecryptsEachBlock
  intro c s hkey hmode hne hdvd
  have hready : CipherReady s.cipher := ⟨hkey, fun hcbc => by rw [hmode] at hcbc; contradiction⟩
  have hexec := exec_cdec_ok c s hready hne hdvd
  have hlen := cdecBytes_length s.cipher hdvd
  rw [decryptBlocks_of_ecb hmode] at hexec hlen
  exact ⟨_, hlen, fun i hi => blockAt_ecb _ c i hi, hexec⟩

/-- Settles O26: block 0 meets `IV`, every further block the ciphertext block before it, and the last one stays in `CHAIN`. -/
theorem cdecInCbcChainsCiphertext : Obligations.CdecInCbcChainsCiphertext := by
  unfold Obligations.CdecInCbcChainsCiphertext
  intro c s hkey hmode hiv hne hdvd
  have hpos := blockCount_pos hne hdvd
  have hexec := exec_cdec_ok c s ⟨hkey, fun _ => hiv⟩ hne hdvd
  have hlen := cdecBytes_length s.cipher hdvd
  rw [decryptBlocks_of_cbc hmode] at hexec hlen
  refine ⟨_, hlen, ?first, fun i hi => ?further, ?answer⟩
  case first => exact blockAt_cbcDecrypt _ _ c 0 hpos
  case further => rw [blockAt_cbcDecrypt _ _ c (i + 1) hi, cbcDecrypt_chain_succ _ c i (by omega)]
  case answer =>
    rw [cbcDecrypt_snd_eq_blockAt _ _ _ hpos] at hexec
    exact hexec

/-- CBC decryption from the same chain value inverts CBC encryption, for a block function with an inverse (R144). -/
theorem cbcDecrypt_cbcEncrypt {enc dec : Block → Block} (hinv : ∀ b, dec (enc b) = b) (chain : Block) (qs : List Block) :
    (cbcDecrypt dec chain (cbcEncrypt enc chain qs).1).1 = qs := by
  induction qs generalizing chain with
  | nil => rfl
  | cons q qs ih => simp only [cbcEncrypt_cons, cbcDecrypt_cons, hinv, xorBlock_cancel, ih]

/-- The decryption of the blocks that a context encrypted gives them back, whatever `CHAIN` holds by then (R29, R144). -/
theorem decryptBlocks_encryptBlocks (c : CipherContext) (chain : Block) (qs : List Block) :
    (decryptBlocks { c with chain := chain } (encryptBlocks c qs).1).1 = qs := by
  have hinv := decBlock_encBlock Config.tables c.rk
  cases hmode : c.cfg.mode with
  | ecb =>
    rw [encryptBlocks_of_ecb hmode, decryptBlocks_of_ecb (c := { c with chain := chain }) hmode]
    simp [ecb, Function.comp_def, hinv]
  | cbc =>
    rw [encryptBlocks_of_cbc hmode, decryptBlocks_of_cbc (c := { c with chain := chain }) hmode]
    exact cbcDecrypt_cbcEncrypt hinv c.iv qs

/-- A `CDEC` of the ciphertext of `p`, after any write of `CHAIN` and any response, answers `p` (R144). -/
theorem exec_cdec_of_cencData (p : Bytes) (s : State) (hready : CipherReady s.cipher) (chain : Block) (r : Response) :
    ∃ b, exec (.cdec (blocksBytes (encryptBlocks s.cipher (blocks (pad p))).1)) ((s.setChain chain).emit r) =
      .next ((((s.setChain chain).emit r).setChain b).emit { status := .ok, cfg := s.cipher.cfg, data := p }) := by
  have hlen := cencData_length s.cipher p
  have hne := List.ne_nil_of_length_pos (hlen.symm ▸ Nat.mul_pos (by decide) (Nat.succ_pos _))
  have hexec := exec_cdec_ok _ ((s.setChain chain).emit r) hready hne ⟨_, hlen⟩
  have hcipher : ((s.setChain chain).emit r).cipher = { s.cipher with chain := chain } := rfl
  rw [hcipher, blocks_blocksBytes, decryptBlocks_encryptBlocks, blocksBytes_blocks _ ⟨_, pad_length p⟩, depad_pad] at hexec
  exact ⟨_, hexec⟩

/-- Settles O29: the ciphertext is a non-empty whole number of blocks, which decrypt to those of the padded plaintext. -/
theorem cdecInvertsCenc : Obligations.CdecInvertsCenc := by
  unfold Obligations.CdecInvertsCenc
  intro p s hready hlen
  obtain ⟨b, hdec⟩ := exec_cdec_of_cencData p s hready _ _
  exact ⟨_, _, _, exec_cenc_ok p s hready hlen, rfl, hdec, rfl⟩

theorem xorBlock_getElem (a b : Block) (i : Nat) (hi : i < 16) : (xorBlock a b)[i] = a[i] ^^^ b[i] :=
  Vector.getElem_zipWith hi

/-- Replacing the second operand `a` by `d` flips exactly the bits in which `a` and `d` differ. -/
theorem xorBlock_xorBlock_cancel (x a d : Block) : xorBlock (xorBlock x a) (xorBlock a d) = xorBlock x d := by
  refine Vector.ext fun i hi => ?_
  have hbyte (x a d : Byte) : x ^^^ a ^^^ (a ^^^ d) = x ^^^ d := by
    rw [BitVec.xor_assoc, ← BitVec.xor_assoc a a, BitVec.xor_self, BitVec.zero_xor]
  simp only [xorBlock_getElem, hbyte]

/-- Block `k` of a CBC decryption, read with a default (R138). -/
theorem cbcDecrypt_getD (dec : Block → Block) (chain z : Block) (qs : List Block) (k : Nat) (hk : k < qs.length) :
    (cbcDecrypt dec chain qs).1.getD k z = xorBlock (dec (qs.getD k z)) ((chain :: qs).getD k chain) := by
  simp [List.getD_eq_getElem?_getD, cbcDecrypt_getElem?, List.getElem?_eq_getElem hk]

/-- Replacing block `i` changes the chain value that block `i + 1` meets, and no other (R138). -/
theorem chain_set_of_ne (chain d : Block) (qs : List Block) {i k : Nat} (hk : k ≠ i + 1) :
    (chain :: qs.set i d).getD k chain = (chain :: qs).getD k chain := by
  rw [← List.set_cons_succ, List.getD_eq_getElem?_getD, List.getElem?_set_ne hk.symm, List.getD_eq_getElem?_getD]

/-- Settles O30: a block of the plaintext depends on its own ciphertext block and on the chain value it meets, and the
replacement is met by block `i` in the one way and by block `i + 1` in the other. -/
theorem cbcErrorReachesTwoBlocks : Obligations.CbcErrorReachesTwoBlocks := by
  unfold Obligations.CbcErrorReachesTwoBlocks
  intro dec chain qs i d hi z p p'
  have hi' : i < (qs.set i d).length := by rwa [List.length_set]
  refine ⟨by simp [p, p'], fun k hk hk1 => ?others, ⟨(chain :: qs).getD i chain, ?before, ?after⟩, fun hi1 => ?next⟩
  case others =>
    simp only [p, p', List.getD_eq_getElem?_getD, cbcDecrypt_getElem?, List.getElem?_set_ne hk.symm]
    rw [← List.getD_eq_getElem?_getD, ← List.getD_eq_getElem?_getD, chain_set_of_ne chain d qs hk1]
  case before => exact cbcDecrypt_getD dec chain z qs i hi
  case after =>
    rw [cbcDecrypt_getD dec chain z _ i hi', chain_set_of_ne chain d qs (by omega), List.getD_eq_getElem _ _ hi',
      List.getElem_set_self]
  case next =>
    have hi1' : i + 1 < (qs.set i d).length := by rwa [List.length_set]
    have hq : qs.getD i chain = qs.getD i z := by rw [List.getD_eq_getElem _ _ hi, List.getD_eq_getElem _ _ hi]
    have hq1 : (qs.set i d).getD (i + 1) z = qs.getD (i + 1) z := by
      rw [List.getD_eq_getElem?_getD, List.getElem?_set_ne (Nat.ne_add_one i), List.getD_eq_getElem?_getD]
    have hd : (qs.set i d).getD i chain = d := by rw [List.getD_eq_getElem _ _ hi', List.getElem_set_self]
    rw [cbcDecrypt_getD dec chain z _ (i + 1) hi1', cbcDecrypt_getD dec chain z qs (i + 1) hi1, List.getD_cons_succ,
      List.getD_cons_succ, hq, hq1, hd, xorBlock_xorBlock_cancel]

end Sys2Proof.Machine
end

section
/-! What each kind of command reads and writes: the frames of the hash and the cipher commands, and the state that they do not
depend on (10_state.md R20, R26 to R29, R35). -/

namespace Sys2Proof.Machine

open Sys2Proof.Safety

/-- All that a hash command reads is the hash context, and `CFG` for its response: from the hash context `h` it always writes the
same hash context and answers the same data (R20). -/
theorem exec_of_isHashCommand {i : Instr} (hi : IsHashCommand i) (h : HashContext) :
    ∃ (h' : HashContext) (data : Bytes), ∀ s : State, s.hash = h →
      exec i s = .next ((s.setHash h').emit { status := .ok, cfg := s.cipher.cfg, data := data }) := by
  cases i with
  | hreset => exact ⟨_, _, fun s _ => exec_hreset s⟩
  | hwrite data => exact ⟨absorb h data, _, fun s hs => hs ▸ exec_hwrite data s⟩
  | hdigest message hex =>
    exact ⟨_, digestData (finalize (digestContext h message)) hex, fun s hs => hs ▸ exec_hdigest message hex s⟩
  | cinit _ _ _ _ | cenc _ | cdec _ | cblk _ _ => exact hi.elim

/-- A `CINIT` reads no context: it always writes the same cipher context and answers the same (R122). -/
theorem exec_cinit (key : Bytes) (iv : Option Bytes) (mode : Mode) (outform : OutForm) :
    ∃ (c : CipherContext) (r : Response), ∀ s : State,
      exec (.cinit key iv mode outform) s = .next ((s.setCipher c).emit r) := by
  by_cases hkey : key.length = 16
  · exact ⟨_, _, fun s => exec_cinit_key key iv mode outform s hkey⟩
  · exact ⟨_, _, fun s => exec_cinit_badKey key iv mode outform s hkey⟩

/-- A context that a command which uses the cipher context cannot tell from `c`: the same `CFG` and `RK`, and the same `IV` where
the mode is CBC (R27 to R29). -/
structure SameView (c d : CipherContext) : Prop where
  cfg : d.cfg = c.cfg
  rk : d.rk = c.rk
  iv : c.cfg.mode = .cbc → d.iv = c.iv

theorem SameView.refl (c : CipherContext) : SameView c c := ⟨rfl, rfl, fun _ => rfl⟩

/-- Whatever is made of a context by the two modes, in ECB from `RK` with `CHAIN` left and in CBC from `RK` and `IV`, is the same
for such contexts (R29, R135 to R138). -/
theorem modes_sameView {g : CipherContext → List Block × Block} {inEcb : RoundKeys → List Block}
    {inCbc : RoundKeys → Block → List Block × Block}
    (hecb : ∀ d, d.cfg.mode = .ecb → g d = (inEcb d.rk, d.chain)) (hcbc : ∀ d, d.cfg.mode = .cbc → g d = inCbc d.rk d.iv)
    (c : CipherContext) :
    ∃ (bs : List Block) (f : Block → Block), (c.cfg.mode = .ecb → f = id) ∧
      ∀ d, SameView c d → g d = (bs, f d.chain) := by
  cases hmode : c.cfg.mode with
  | ecb =>
    refine ⟨inEcb c.rk, id, fun _ => rfl, fun d hd => ?_⟩
    rw [hecb d (by rw [hd.cfg, hmode]), hd.rk, id]
  | cbc =>
    refine ⟨(inCbc c.rk c.iv).1, fun _ => (inCbc c.rk c.iv).2, (nomatch ·), fun d hd => ?_⟩
    rw [hcbc d (by rw [hd.cfg, hmode]), hd.rk, hd.iv hmode]

/-- Such contexts encrypt to the same blocks, and write the same to `CHAIN` or leave it in both. -/
theorem encryptBlocks_sameView (c : CipherContext) (qs : List Block) :
    ∃ (bs : List Block) (f : Block → Block), (c.cfg.mode = .ecb → f = id) ∧
      ∀ d, SameView c d → encryptBlocks d qs = (bs, f d.chain) :=
  modes_sameView (inEcb := fun rk => ecb (encBlock Config.tables rk) qs)
    (inCbc := fun rk iv => cbcEncrypt (encBlock Config.tables rk) iv qs)
    (fun _ h => encryptBlocks_of_ecb h qs) (fun _ h => encryptBlocks_of_cbc h qs) c

/-- Such contexts decrypt to the same blocks, and write the same to `CHAIN` or leave it in both. -/
theorem decryptBlocks_sameView (c : CipherContext) (qs : List Block) :
    ∃ (bs : List Block) (f : Block → Block), (c.cfg.mode = .ecb → f = id) ∧
      ∀ d, SameView c d → decryptBlocks d qs = (bs, f d.chain) :=
  modes_sameView (inEcb := fun rk => ecb (decBlock Config.tables rk) qs)
    (inCbc := fun rk iv => cbcDecrypt (decBlock Config.tables rk) iv qs)
    (fun _ h => decryptBlocks_of_ecb h qs) (fun _ h => decryptBlocks_of_cbc h qs) c

/-- A context that such a view shows ready is ready. -/
theorem SameView.ready {c d : CipherContext} (hd : SameView c d) (hc : CipherReady c) : CipherReady d := by
  rw [CipherReady, hd.cfg]
  exact hc

/-- In two states with such contexts a command meets the same error. -/
theorem SameView.errorOf_eq {s u : State} (h : SameView s.cipher u.cipher) (i : Instr) : errorOf u i = errorOf s i :=
  errorOf_congr i s u (by rw [h.cfg]) (by rw [h.cfg]) (by rw [h.cfg])

/-- A `CENC`, `CDEC` or `CBLK` reads of the state no more than a view shows: in every state with the view of `s` it answers the
same, and treats `CHAIN` alike, leaving it as it is in ECB mode, after an error and in a `CBLK` (R27 to R29, R35). -/
theorem exec_of_usesCipher {i : Instr} (hi : UsesCipher i) (s : State) :
    ∃ (st : Status) (data : Bytes) (f : Block → Block),
      (s.cipher.cfg.mode = .ecb ∨ errorOf s i ≠ none ∨ (∃ b d, i = .cblk b d) → f = id) ∧
      ∀ u : State, SameView s.cipher u.cipher → exec i u =
        .next ((u.setChain (f u.cipher.chain)).emit { status := st, cfg := u.cipher.cfg, data := data }) := by
  cases he : errorOf s i with
  | some e => exact ⟨e, [], id, fun _ => rfl, fun u hu => exec_error i u e ((hu.errorOf_eq i).trans he) hi⟩
  | none =>
    cases i with
    | hreset | hwrite _ | hdigest _ _ | cinit _ _ _ _ => exact hi.elim
    | cenc p =>
      obtain ⟨hready, hlen⟩ := (errorOf_cenc_none p s).mp he
      obtain ⟨bs, f, hf, hblocks⟩ := encryptBlocks_sameView s.cipher (blocks (pad p))
      refine ⟨.ok, blocksBytes bs, f, fun h => hf (by simpa using h), fun u hu => ?_⟩
      rw [exec_cenc_ok p u (hu.ready hready) hlen, hblocks _ hu]
    | cdec c =>
      obtain ⟨hready, hne, hdvd⟩ := (errorOf_cdec_none c s).mp he
      obtain ⟨bs, f, hf, hblocks⟩ := decryptBlocks_sameView s.cipher (blocks c)
      refine ⟨.ok, depad (blocksBytes bs), f, fun h => hf (by simpa using h), fun u hu => ?_⟩
      rw [exec_cdec_ok c u (hu.ready hready) hne hdvd, hblocks _ hu]
    | cblk b dec =>
      obtain ⟨hkey, hlen⟩ := (errorOf_cblk_none b dec s).mp he
      refine ⟨.ok, (cblkTransform s dec (slice 16 b)).toList, id, fun _ => rfl, fun u hu => ?_⟩
      rw [exec_cblk_ok b dec u (by rw [hu.cfg, hkey]) hlen, cblkTransform_eq, cblkTransform_eq, hu.rk]
      rfl

/-- The commands by what they use: the hash context, no context (`CINIT`), or a constructed cipher context. -/
theorem command_cases (i : Instr) : IsHashCommand i ∨ (∃ k v m o, i = .cinit k v m o) ∨ UsesCipher i := by
  cases i with
  | hreset | hwrite _ | hdigest _ _ => exact .inl trivial
  | cinit k v m o => exact .inr (.inl ⟨k, v, m, o, rfl⟩)
  | cenc _ | cdec _ | cblk _ _ => exact .inr (.inr trivial)

/-- All that a cipher command reads is the cipher context: from the cipher context of `s` it always writes the same cipher context
and answers the same (R20). -/
theorem exec_of_not_isHashCommand {i : Instr} (hi : ¬ IsHashCommand i) (s : State) :
    ∃ (c : CipherContext) (r : Response), ∀ u : State, u.cipher = s.cipher → exec i u = .next ((u.setCipher c).emit r) := by
  obtain h | ⟨k, v, m, o, rfl⟩ | h := command_cases i
  · exact absurd h hi
  · obtain ⟨c, r, hexec⟩ := exec_cinit k v m o
    exact ⟨c, r, fun u _ => hexec u⟩
  · obtain ⟨st, data, f, -, hexec⟩ := exec_of_usesCipher h s
    refine ⟨{ s.cipher with chain := f s.cipher.chain }, { status := st, cfg := s.cipher.cfg, data := data }, fun u hu => ?_⟩
    rw [hexec u (hu ▸ .refl _), State.setChain, hu]
    rfl

/-- Settles O43: the hash command writes the hash context and emits. -/
theorem hashCommandsKeepCipherContext : Obligations.HashCommandsKeepCipherContext := by
  unfold Obligations.HashCommandsKeepCipherContext
  intro i s t hi ht
  obtain ⟨h', data, hexec⟩ := exec_of_isHashCommand hi s.hash
  cases (hexec s rfl).symm.trans ht
  exact ⟨rfl, rfl, _, rfl⟩

/-- Settles O47: the write and the data depend on the hash context alone, and the response shows the same `CFG`. -/
theorem hashCommandsIgnoreCipherContext : Obligations.HashCommandsIgnoreCipherContext := by
  unfold Obligations.HashCommandsIgnoreCipherContext
  intro i s t c hi hcfg ht
  obtain ⟨h', data, hexec⟩ := exec_of_isHashCommand hi s.hash
  cases (hexec s rfl).symm.trans ht
  rw [hexec { s with cipher := c } rfl, ← hcfg]
  rfl

/-- Settles O44: the cipher command writes the cipher context and emits. -/
theorem cipherCommandsKeepHashContext : Obligations.CipherCommandsKeepHashContext := by
  unfold Obligations.CipherCommandsKeepHashContext
  intro i s t hi ht
  obtain ⟨c, r, hexec⟩ := exec_of_not_isHashCommand hi s
  cases (hexec s rfl).symm.trans ht
  exact ⟨rfl, rfl, _, rfl⟩

/-- Settles O48: the write and the response depend on the cipher context alone. -/
theorem cipherCommandsIgnoreHashContext : Obligations.CipherCommandsIgnoreHashContext := by
  unfold Obligations.CipherCommandsIgnoreHashContext
  intro i s t h hi ht
  obtain ⟨c, r, hexec⟩ := exec_of_not_isHashCommand hi s
  cases (hexec s rfl).symm.trans ht
  exact hexec { s with hash := h } rfl

/-- Settles O45: all that the command writes is `CHAIN`, and the three cases leave it as it is. -/
theorem onlyCbcWritesChain : Obligations.OnlyCbcWritesChain := by
  unfold Obligations.OnlyCbcWritesChain
  intro i s t hi ht
  obtain ⟨st, data, f, hf, hexec⟩ := exec_of_usesCipher hi s
  cases (hexec s (.refl _)).symm.trans ht
  exact ⟨rfl, rfl, rfl, fun h => by rw [hf h]; rfl⟩

/-- Settles O46: a hash command keeps the whole cipher context (O43), and `CENC`, `CDEC` and `CBLK` all but `CHAIN` (O45). -/
theorem onlyCinitWritesConfiguration : Obligations.OnlyCinitWritesConfiguration := by
  unfold Obligations.OnlyCinitWritesConfiguration
  intro i s t hne ht
  obtain h | ⟨k, v, m, o, rfl⟩ | h := command_cases i
  · obtain ⟨hcipher, -, -⟩ := hashCommandsKeepCipherContext i s t h ht
    rw [hcipher]
    exact ⟨rfl, rfl, rfl⟩
  · exact absurd rfl (hne k v m o)
  · obtain ⟨hcfg, hrk, hiv, -⟩ := onlyCbcWritesChain i s t h ht
    exact ⟨hcfg, hrk, hiv⟩

/-- Settles O49: a hash command and a `CINIT` do not read the cipher context, and a view of it does not show `CHAIN`. -/
theorem chainIsNeverObserved : Obligations.ChainIsNeverObserved := by
  unfold Obligations.ChainIsNeverObserved
  intro i s t b ht
  obtain h | ⟨k, v, m, o, rfl⟩ | h := command_cases i
  · obtain ⟨h', data, hexec⟩ := exec_of_isHashCommand h s.hash
    cases (hexec s rfl).symm.trans ht
    exact ⟨_, hexec (s.setChain b) rfl, rfl, rfl, rfl, rfl, rfl, rfl⟩
  · obtain ⟨c, r, hexec⟩ := exec_cinit k v m o
    cases (hexec s).symm.trans ht
    exact ⟨_, hexec (s.setChain b), rfl, rfl, rfl, rfl, rfl, rfl⟩
  · obtain ⟨st, data, f, -, hexec⟩ := exec_of_usesCipher h s
    cases (hexec s (.refl _)).symm.trans ht
    exact ⟨_, hexec (s.setChain b) ⟨rfl, rfl, fun _ => rfl⟩, rfl, rfl, rfl, rfl, rfl, rfl⟩

/-- Settles O50: in ECB mode a view of the cipher context does not show `IV`. -/
theorem ivIsNotReadInEcb : Obligations.IvIsNotReadInEcb := by
  unfold Obligations.IvIsNotReadInEcb
  intro i s t b hi hmode ht
  obtain ⟨st, data, f, -, hexec⟩ := exec_of_usesCipher hi s
  cases (hexec s (.refl _)).symm.trans ht
  exact hexec { s with cipher := { s.cipher with iv := b } } ⟨rfl, rfl, fun hcbc => by rw [hmode] at hcbc; contradiction⟩

/-- Without a key `CENC`, `CDEC` and `CBLK` report `NO_KEY` (R155). -/
theorem errorOf_of_noKey {i : Instr} (hi : UsesCipher i) {s : State} (hkey : s.cipher.cfg.keyOk = false) :
    errorOf s i = some .noKey := by
  cases i with
  | hreset | hwrite _ | hdigest _ _ | cinit _ _ _ _ => exact hi.elim
  | cenc _ | cdec _ | cblk _ _ => exact if_pos hkey

/-- Settles O51: a hash command and a `CINIT` do not read the cipher context, and every other command reports `NO_KEY`. -/
theorem keysAreNotReadWithoutKey : Obligations.KeysAreNotReadWithoutKey := by
  unfold Obligations.KeysAreNotReadWithoutKey
  intro i s t rk iv chain hkey ht
  obtain h | ⟨k, v, m, o, rfl⟩ | h := command_cases i
  · obtain ⟨h', data, hexec⟩ := exec_of_isHashCommand h s.hash
    cases (hexec s rfl).symm.trans ht
    exact ⟨_, hexec _ rfl, rfl, rfl, rfl, rfl⟩
  · obtain ⟨c, r, hexec⟩ := exec_cinit k v m o
    cases (hexec s).symm.trans ht
    exact ⟨_, hexec _, rfl, rfl, rfl, rfl⟩
  · cases (exec_error i s .noKey (errorOf_of_noKey h hkey) h).symm.trans ht
    exact ⟨_, exec_error i _ .noKey (errorOf_of_noKey h hkey) h, rfl, rfl, rfl, rfl⟩

end Sys2Proof.Machine
end

section
/-! The invariant of the two contexts and of the response stream: after reset, over every step, and what it says of the buffer
(10_state.md R25, R30, 30_encoding.md R72). -/

namespace Sys2Proof.Machine

open Sys2Proof.Safety

/-- The fresh hash context is the one after no byte. -/
theorem hashInv_fresh : HashInv HashContext.fresh := ⟨[], written_fresh⟩

/-- The reset cipher context has no key, so that only the zero `IV` is asked of it (R36). -/
theorem cipherInv_reset : CipherInv CipherContext.reset where
  noKey _ := rfl
  ivNeedsKey h := nomatch h
  noIv _ := rfl
  schedule h := nomatch h

/-- Settles O37: both contexts are the reset ones, and there is no response. -/
theorem resetMeetsInvariant : Obligations.ResetMeetsInvariant := by
  unfold Obligations.ResetMeetsInvariant
  exact ⟨hashInv_fresh, cipherInv_reset, [], by simp, rfl⟩

/-- Settles O39: the buffer holds what the bytes written have beyond their last whole block. -/
theorem invariantBoundsBuffer : Obligations.InvariantBoundsBuffer := by
  unfold Obligations.InvariantBoundsBuffer
  intro s hinv
  obtain ⟨m, hw⟩ := hinv.hash
  have hbuf := Written_buf_length hw
  have hcount : s.hash.nbits.toNat = 8 * m.length % 2 ^ 64 := by rw [hw.nbits, BitVec.toNat_ofNat]
  omega

/-- Every command keeps the invariant of the hash context: `HWRITE` adds to the bytes written, and a hash command of another kind
starts afresh (R25). -/
theorem hashInv_exec {i : Instr} {s t : State} (hinv : HashInv s.hash) (ht : exec i s = .next t) : HashInv t.hash := by
  cases i with
  | hreset =>
    cases (exec_hreset s).symm.trans ht
    exact hashInv_fresh
  | hdigest message hex =>
    cases (exec_hdigest message hex s).symm.trans ht
    exact hashInv_fresh
  | hwrite data =>
    cases (exec_hwrite data s).symm.trans ht
    obtain ⟨m, hw⟩ := hinv
    exact ⟨m ++ data, written_absorb hw data⟩
  | cinit _ _ _ _ | cenc _ | cdec _ | cblk _ _ =>
    obtain ⟨hhash, -, -⟩ := cipherCommandsKeepHashContext _ s t id ht
    rwa [hhash]

/-- What a `CINIT` with a 16-byte key constructs meets the invariant: it has a key, and `IV` is zero where none was accepted
(R122). -/
theorem cipherInv_constructCipher (key : Bytes) (iv : Option Bytes) (mode : Mode) (outform : OutForm) :
    CipherInv (constructCipher Config.tables key iv mode outform) where
  noKey h := nomatch h
  ivNeedsKey _ := rfl
  noIv h := ivRegister_eq_zero fun hiv => Bool.false_ne_true (h.symm.trans ((ivAccepted_eq_true iv).mpr hiv))
  schedule _ := ⟨slice 16 key, rfl⟩

/-- With a key, the invariant of the cipher context does not depend on `CHAIN` (R29, R30). -/
theorem cipherInv_of_sameKeys {c d : CipherContext} (hinv : CipherInv c) (hkey : c.cfg.keyOk = true) (hcfg : d.cfg = c.cfg)
    (hrk : d.rk = c.rk) (hiv : d.iv = c.iv) : CipherInv d where
  noKey h := by rw [hcfg, hkey] at h; contradiction
  ivNeedsKey _ := by rw [hcfg, hkey]
  noIv h := by rw [hiv]; exact hinv.noIv (hcfg ▸ h)
  schedule _ := by rw [hrk]; exact hinv.schedule hkey

/-- Every command keeps the invariant of the cipher context: a `CINIT` constructs it or resets it, and `CENC`, `CDEC` and `CBLK`
write `CHAIN` at most, and that only with a key (R30). -/
theorem cipherInv_exec {i : Instr} {s t : State} (hinv : CipherInv s.cipher) (ht : exec i s = .next t) :
    CipherInv t.cipher := by
  obtain h | ⟨key, iv, mode, outform, rfl⟩ | h := command_cases i
  · obtain ⟨hcipher, -, -⟩ := hashCommandsKeepCipherContext i s t h ht
    rwa [hcipher]
  · by_cases hkey : key.length = 16
    · cases (exec_cinit_key key iv mode outform s hkey).symm.trans ht
      exact cipherInv_constructCipher key iv mode outform
    · cases (exec_cinit_badKey key iv mode outform s hkey).symm.trans ht
      exact cipherInv_reset
  · cases hkey : s.cipher.cfg.keyOk with
    | false =>
      cases (exec_error i s .noKey (errorOf_of_noKey h hkey) h).symm.trans ht
      exact hinv
    | true =>
      obtain ⟨hcfg, hrk, hiv, -⟩ := onlyCbcWritesChain i s t h ht
      exact cipherInv_of_sameKeys hinv hkey hcfg hrk hiv

/-- The data of an `HDIGEST` are 32 bytes, or 64 in hexadecimal (R92, R93). -/
theorem digestData_length (v : Digest8) (hex : Bool) : (digestData v hex).length = if hex then 64 else 32 := by
  cases hex with
  | false => exact digestBytes_length v
  | true => rw [digestData, if_pos rfl, hexBytes_length, digestBytes_length]; rfl

/-- A response without data fits `RLEN` (R72). -/
theorem responseInv_of_noData (st : Status) (c : Cfg) : ResponseInv { status := st, cfg := c, data := [] } where
  noData _ := rfl
  fits := by simp

/-- A response `OK` whose data fit `RLEN` is one the engine may produce (R72). -/
theorem responseInv_ok (c : Cfg) {data : Bytes} (h : data.length < 2 ^ 32) :
    ResponseInv { status := .ok, cfg := c, data := data } where
  noData hne := absurd rfl hne
  fits := h

/-- The response stream after one response more (R53). -/
theorem responsesInv_append {rsp : Bytes} (hinv : ResponsesInv rsp) {r : Response} (hr : ResponseInv r) :
    ResponsesInv (rsp ++ r.bytes) := by
  obtain ⟨rs, hrs, rfl⟩ := hinv
  refine ⟨rs ++ [r], fun r' hr' => ?_, by simp⟩
  obtain h | rfl := List.mem_append.mp hr' |>.imp_right List.mem_singleton.mp
  · exact hrs r' h
  · exact hr

/-- Every well-formed command answers a response the engine may produce: without data after an error; otherwise with at most as
many bytes as the payload has, filled up to a whole block or the length of a digest (R72, R134). -/
theorem exec_responseInv {i : Instr} {s t : State} (hi : i.WellFormed) (ht : exec i s = .next t) :
    ∃ r, ResponseInv r ∧ t.rsp = s.rsp ++ r.bytes := by
  cases he : errorOf s i with
  | some e =>
    cases (exec_of_errorOf_some he).symm.trans ht
    exact ⟨_, responseInv_of_noData _ _, rfl⟩
  | none =>
    cases i with
    | hreset =>
      cases (exec_hreset s).symm.trans ht
      exact ⟨_, responseInv_of_noData _ _, rfl⟩
    | hwrite data =>
      cases (exec_hwrite data s).symm.trans ht
      exact ⟨_, responseInv_of_noData _ _, rfl⟩
    | hdigest message hex =>
      cases (exec_hdigest message hex s).symm.trans ht
      exact ⟨_, responseInv_ok _ (by rw [digestData_length]; split <;> decide), rfl⟩
    | cinit key iv m o =>
      cases (exec_cinit_key key iv m o s ((errorOf_cinit_none key iv m o s).mp he)).symm.trans ht
      exact ⟨_, responseInv_of_noData _ _, rfl⟩
    | cenc p =>
      obtain ⟨hready, hlen⟩ := (errorOf_cenc_none p s).mp he
      cases (exec_cenc_ok p s hready hlen).symm.trans ht
      exact ⟨_, responseInv_ok _ (by rw [cencData_length]; omega), rfl⟩
    | cdec c =>
      obtain ⟨hready, hne, hdvd⟩ := (errorOf_cdec_none c s).mp he
      have hle := (depad_length_le (blocksBytes (decryptBlocks s.cipher (blocks c)).1)).trans_eq (cdecBytes_length s.cipher hdvd)
      cases (exec_cdec_ok c s hready hne hdvd).symm.trans ht
      exact ⟨_, responseInv_ok _ (hle.trans_lt hi.1), rfl⟩
    | cblk b dec =>
      obtain ⟨hkey, hlen⟩ := (errorOf_cblk_none b dec s).mp he
      cases (exec_cblk_ok b dec s hkey hlen).symm.trans ht
      exact ⟨_, responseInv_ok _ (by rw [Vector.length_toList]; decide), rfl⟩

/-- The invariant does not speak of the bytes that wait. -/
theorem inv_setCmd {s : State} (hinv : Inv s) (bs : Bytes) : Inv (s.setCmd bs) := ⟨hinv.hash, hinv.cipher, hinv.responses⟩

/-- Every well-formed command keeps the invariant. -/
theorem inv_exec {i : Instr} {s t : State} (hi : i.WellFormed) (hinv : Inv s) (ht : exec i s = .next t) : Inv t where
  hash := hashInv_exec hinv.hash ht
  cipher := cipherInv_exec hinv.cipher ht
  responses := by
    obtain ⟨r, hr, hrsp⟩ := exec_responseInv hi ht
    rw [hrsp]
    exact responsesInv_append hinv.responses hr

/-- The response to an illegal packet keeps the invariant (R67). -/
theorem inv_raiseIllegalCommand {s t : State} (hinv : Inv s) (ht : raiseIllegalCommand s = .next t) : Inv t := by
  cases ht
  exact ⟨hinv.hash, hinv.cipher, responsesInv_append hinv.responses (responseInv_of_noData _ _)⟩

/-- A step that answers a state runs a command that the decoder found, or answers an illegal packet (R62, R67, R69). -/
theorem step_next {s t : State} (ht : step s = .next t) :
    (∃ i rest, decode s.cmd = .command i rest ∧ exec i (s.setCmd rest) = .next t) ∨
      ∃ rest, raiseIllegalCommand (s.setCmd rest) = .next t := by
  cases hd : decode s.cmd with
  | command i rest => rw [step, hd] at ht; exact .inl ⟨i, rest, rfl, ht⟩
  | illegal why rest => rw [step, hd] at ht; exact .inr ⟨rest, ht⟩
  | short why => rw [step, hd] at ht; cases why <;> cases ht

/-- Settles O38: a step runs a well-formed command, since the decoder gives no other (O55), or answers an illegal packet, and both
keep the invariant. -/
theorem stepKeepsInvariant : Obligations.StepKeepsInvariant := by
  unfold Obligations.StepKeepsInvariant
  intro s t hinv ht
  obtain ⟨i, rest, hd, ht⟩ | ⟨rest, ht⟩ := step_next ht
  · obtain ⟨hi, -⟩ := encodeInvertsDecode s.cmd rest i hd
    exact inv_exec hi (inv_setCmd hinv rest) ht
  · exact inv_raiseIllegalCommand (inv_setCmd hinv rest) ht

end Sys2Proof.Machine
end
